-- ==== Sys2Proof/Config.lean ====
section
/-! DEFINITION. The build parameter FAMILY and the parameters it fixes for the shapes of the state
(spec/00_scope.md rules R2, R3, R4; spec/92_eei_decisions.md D1). The parameters that do not shape a
type (WB, SB, ROUNDS, AUTOINC, the FAMILY id) stand in Machine/Params.lean. The spec leaves no value
open (R210, "Nothing is left unspecified"), so this file declares no free value (log entry 17). -/

namespace Sys2Proof

/-- The four Philox families (R2): Philox-2x32, Philox-2x64, Philox-4x32 and Philox-4x64. -/
inductive Philox where
  | p2x32
  | p2x64
  | p4x32
  | p4x64
deriving DecidableEq, Repr

/-- FAMILY (R3): TF2x64, or one of PH2x32, PH2x64, PH4x32, PH4x64. -/
inductive Family where
  | tf2x64
  | philox (v : Philox)
deriving DecidableEq, Repr

/-- W of a Philox family (R4). -/
@[reducible] def Philox.width : Philox → Nat
  | .p2x32 => 32
  | .p2x64 => 64
  | .p4x32 => 32
  | .p4x64 => 64

/-- N of a Philox family (R4). -/
@[reducible] def Philox.words : Philox → Nat
  | .p2x32 => 2
  | .p2x64 => 2
  | .p4x32 => 4
  | .p4x64 => 4

/-- NK of a Philox family (R4; R21: N / 2). -/
@[reducible] def Philox.keyWords : Philox → Nat
  | .p2x32 => 1
  | .p2x64 => 1
  | .p4x32 => 2
  | .p4x64 => 2

/-- W, the word width in bits (R4). -/
@[reducible] def Family.width : Family → Nat
  | .tf2x64 => 64
  | .philox v => v.width

/-- N, the number of words in a counter and in a block (R4). -/
@[reducible] def Family.words : Family → Nat
  | .tf2x64 => 2
  | .philox v => v.words

/-- NK, the number of key words (R4). -/
@[reducible] def Family.keyWords : Family → Nat
  | .tf2x64 => 2
  | .philox v => v.keyWords

theorem Family.words_pos (f : Family) : 0 < f.words := by
  cases f with
  | tf2x64 => decide
  | philox v => cases v <;> decide

theorem Family.words_le_four (f : Family) : f.words ≤ 4 := by
  cases f with
  | tf2x64 => decide
  | philox v => cases v <;> decide

theorem Family.keyWords_le_two (f : Family) : f.keyWords ≤ 2 := by
  cases f with
  | tf2x64 => decide
  | philox v => cases v <;> decide

/-- The family of the block that `State.reset` is the reset state of. DESIGN CHOICE (log entry 1):
R3 fixes FAMILY when the block is built and the interface wants one reset state. Every claim about
reset is stated of `State.resetOf f` for every family `f`. -/
def Config.resetFamily : Family := .tf2x64

end Sys2Proof
end

