-- ==== Sys2Proof/Word.lean ====
section
/-! DEFINITION. Words and tuples of words (spec/00_scope.md rule R5). The width and the tuple lengths
come from the family. Sums of words are `BitVec` sums, which wrap modulo 2^W (R6); exclusive OR is `^^^`
(R9). -/

namespace Sys2Proof

/-- A byte of a seed or of a byte fill (spec/30_encoding.md R60, R65). -/
abbrev Byte := BitVec 8

/-- A W-bit word (R5). -/
abbrev Word (f : Family) := BitVec f.width

/-- A tuple of N words, element 0 first (R5): a counter or an output block. -/
abbrev Block (f : Family) := Vector (Word f) f.words

/-- A tuple of NK words (spec/10_state.md R21): a key. -/
abbrev Key (f : Family) := Vector (Word f) f.keyWords

end Sys2Proof
end

