-- ==== Sys2Proof/Syntax.lean ====
section
/-! DEFINITION. The commands (spec/30_encoding.md rule R67; one constructor per row of
spec/opcode_table.json). A command word carries one operand only, LEN of FILL (R61); the operand fields A,
K and S are fields of the request beside it (R60) and reach a meaning through the state. -/

namespace Sys2Proof

/-- The twelve commands of R67. -/
inductive Instr where
  /-- NOP, R180. -/
  | nop
  /-- SEED, R134. -/
  | seed
  /-- SETKEY, R135. -/
  | setkey
  /-- SETCTR, R136. -/
  | setctr
  /-- GEN, R137. -/
  | gen
  /-- NEXT, R161. -/
  | next
  /-- FILL, R162; `len` is LEN, a plain byte count (R61). -/
  | fill (len : Nat)
  /-- MIX, R133. -/
  | mix
  /-- ROUND, R108. -/
  | round
  /-- BUMP, R109. -/
  | bump
  /-- RDSTATE, R181. -/
  | rdstate
  /-- RDBUF, R182. -/
  | rdbuf
deriving DecidableEq, Repr

end Sys2Proof
end

