-- ==== Sys2Proof/WellFormed.lean ====
section
/-! DEFINITION. Well-formed instructions: LEN fits its 16 bits (spec/30_encoding.md rules R61, R72:
"0 <= n <= 65535"). No other command has an operand in its word. R69's condition on a command WORD stands in
Decode.lean. -/

namespace Sys2Proof

/-- The check: the byte count of FILL is at most 65535. -/
def Instr.wf : Instr → Bool
  | .nop => true
  | .seed => true
  | .setkey => true
  | .setctr => true
  | .gen => true
  | .next => true
  | .fill len => decide (len < 65536)
  | .mix => true
  | .round => true
  | .bump => true
  | .rdstate => true
  | .rdbuf => true

end Sys2Proof
end

