-- ==== Sys2Proof/Decode.lean ====
section
/-! DEFINITION. The command word: its fields (spec/30_encoding.md rule R61), its opcode map (R67), its
well-formedness (R69, R70), the decoder and the encoder. The decoder is total on 32-bit words and says by
name why it rejects one; every rejection is the status ILLEGAL (R69). -/

namespace Sys2Proof

/-- OP, bits 3:0 (R61). -/
def opField (cmd : BitVec 32) : Nat := (cmd.extractLsb' 0 4).toNat

/-- SEL, bits 5:4 (R61). -/
def selField (cmd : BitVec 32) : Nat := (cmd.extractLsb' 4 2).toNat

/-- RSV, bits 15:6 (R61). -/
def rsvField (cmd : BitVec 32) : Nat := (cmd.extractLsb' 6 10).toNat

/-- LEN, bits 31:16, zero-extended: a plain byte count (R61). -/
def lenField (cmd : BitVec 32) : Nat := (cmd.extractLsb' 16 16).toNat

/-- Why a command word is not well-formed: which of R69's four conditions fails, taken in R69's order. -/
inductive Reject where
  /-- `CMD[3:0] <= 0xA` fails: opcodes 0xB to 0xF are reserved (R70). -/
  | reservedOpcode
  /-- `CMD[15:6] == 0` fails. -/
  | reservedBits
  /-- SEL is neither 0 nor the 1 of RDBUF. -/
  | badSelector
  /-- LEN is not 0 outside FILL. -/
  | lengthOutsideFill
deriving DecidableEq, Repr

/-- R69's four conditions; `none` when all hold. -/
def rejection (cmd : BitVec 32) : Option Reject :=
  if opField cmd > 0xA then some .reservedOpcode
  else if rsvField cmd ≠ 0 then some .reservedBits
  else if ¬ (selField cmd = 0 ∨ (opField cmd = 0xA ∧ selField cmd = 1)) then some .badSelector
  else if ¬ (lenField cmd = 0 ∨ opField cmd = 0x6) then some .lengthOutsideFill
  else none

/-- The opcode map (R67), by OP, SEL and LEN; `none` for the reserved opcodes 0xB to 0xF. -/
def commandOf (op sel len : Nat) : Option Instr :=
  match op with
  | 0x0 => some .nop
  | 0x1 => some .seed
  | 0x2 => some .setkey
  | 0x3 => some .setctr
  | 0x4 => some .gen
  | 0x5 => some .next
  | 0x6 => some (.fill len)
  | 0x7 => some .mix
  | 0x8 => some .round
  | 0x9 => some .bump
  | 0xA => some (if sel = 1 then .rdbuf else .rdstate)
  | _ => none

/-- Decode a command word (R61, R67, R69). Only CMD is needed (R71). -/
def decode (cmd : BitVec 32) : Except Reject Instr :=
  match rejection cmd with
  | some why => .error why
  | none =>
    match commandOf (opField cmd) (selField cmd) (lenField cmd) with
    | some i => .ok i
    | none => .error .reservedOpcode

/-- OP of a command (R67). -/
def opcodeOf : Instr → BitVec 4
  | .nop => 0x0
  | .seed => 0x1
  | .setkey => 0x2
  | .setctr => 0x3
  | .gen => 0x4
  | .next => 0x5
  | .fill _ => 0x6
  | .mix => 0x7
  | .round => 0x8
  | .bump => 0x9
  | .rdstate => 0xA
  | .rdbuf => 0xA

/-- SEL of a command (R67). -/
def selectorOf : Instr → BitVec 2
  | .nop => 0
  | .seed => 0
  | .setkey => 0
  | .setctr => 0
  | .gen => 0
  | .next => 0
  | .fill _ => 0
  | .mix => 0
  | .round => 0
  | .bump => 0
  | .rdstate => 0
  | .rdbuf => 1

/-- LEN of a command (R61): the byte count of FILL, 0 for every other. -/
def lengthOf : Instr → BitVec 16
  | .nop => 0
  | .seed => 0
  | .setkey => 0
  | .setctr => 0
  | .gen => 0
  | .next => 0
  | .fill len => BitVec.ofNat 16 len
  | .mix => 0
  | .round => 0
  | .bump => 0
  | .rdstate => 0
  | .rdbuf => 0

/-- The command word of a command: LEN, RSV = 0, SEL and OP, from bit 31 down (R61). -/
def encode (i : Instr) : BitVec 32 :=
  lengthOf i ++ 0#10 ++ selectorOf i ++ opcodeOf i

/-- The command word of the table's number `w` of `nbits` bits: bit 0 is bit 0 of CMD, and bits above `nbits`
are 0. CMD is one 32-bit word with no byte layout of its own (spec/20_memory.md §2; log entry 15). -/
def tableWord (nbits w : Nat) : BitVec 32 := BitVec.ofNat 32 (w % 2 ^ nbits)

/-- What the decoder reads from the table's number `w` of `nbits` bits. -/
def decodeTableWord (nbits w : Nat) : Option Instr :=
  match decode (tableWord nbits w) with
  | .ok i => some i
  | .error _ => none

end Sys2Proof
end

