-- ==== Sys2Proof/Machine/Params.lean ====
section
/-! DEFINITION. The parameters of spec/00_scope.md rule R4 that shape no type: WB, SB, ROUNDS, AUTOINC and
the FAMILY id (spec/10_state.md R25). W, N and NK stand in Config.lean. -/

namespace Sys2Proof

/-- WB, the number of bytes in a word: W / 8 (R4). -/
def Family.wordBytes (f : Family) : Nat := f.width / 8

/-- SB, the seed length in bytes (R4: NK = SB / WB). -/
def Family.seedBytes (f : Family) : Nat := f.keyWords * f.wordBytes

/-- ROUNDS, the number of kernel rounds (R4; R86, R106). -/
def Family.rounds : Family → Nat
  | .tf2x64 => 20
  | .philox _ => 10

/-- AUTOINC: whether block generation advances the counter (R4; C3). -/
def Family.autoInc : Family → Bool
  | .tf2x64 => true
  | .philox _ => false

/-- The FAMILY id (R4, R25). -/
def Family.id : Family → BitVec 3
  | .tf2x64 => 0
  | .philox .p2x32 => 1
  | .philox .p2x64 => 2
  | .philox .p4x32 => 3
  | .philox .p4x64 => 4

end Sys2Proof
end

