-- ==== Sys2Proof/Machine/State.lean ====
section
/-! DEFINITION. The state of one block, with the host's side of its interface (spec/10_state.md; the request
and response records of spec/30_encoding.md rules R60 and R65; reset of spec/70_reset_and_hazards.md R210).

`Regs` is the architectural state, S0 to S4 of spec/10_state.md. The other fields of `State` are the
model's own: the build parameter FAMILY (log entry 1), the operand fields of the request in hand (log
entry 4), what the host will do next (log entry 2) and the responses it has received (log entry 3). Every type
that depends on the family is indexed by it, so a word has exactly W bits and a tuple exactly N or NK words. -/

namespace Sys2Proof.Machine

/-- The architectural state of a block of family `f` (spec/10_state.md S0 to S4). -/
structure Regs (f : Family) where
  /-- CTR, the counter (R20). -/
  ctr : Block f
  /-- KEY, the key (R21). -/
  key : Key f
  /-- BUF, the buffered block (R22). -/
  buf : Block f
  /-- CUR, the read cursor, an integer 0 to N (R23, R26; log entry 8). -/
  cur : Fin (f.words + 1)
  /-- VALID, set once the block has been seeded (R24). -/
  valid : Bool
deriving DecidableEq, Repr

/-- Reset values (R210; R20 to R24): all words 0, CUR = N, VALID = 0. -/
def Regs.reset (f : Family) : Regs f where
  ctr := Vector.replicate f.words 0
  key := Vector.replicate f.keyWords 0
  buf := Vector.replicate f.words 0
  cur := Fin.last f.words
  valid := false

/-- The operand fields of a request (R60). -/
structure Operands (f : Family) where
  /-- A, four words: the counter operand. -/
  a : Vector (Word f) 4
  /-- K, two words: the key operand. -/
  k : Vector (Word f) 2
  /-- S, sixteen bytes: the seed operand. -/
  s : Vector Byte 16
deriving DecidableEq, Repr

/-- Operand fields that are all 0. -/
def Operands.zero (f : Family) : Operands f where
  a := Vector.replicate 4 0
  k := Vector.replicate 2 0
  s := Vector.replicate 16 0

/-- A request (R60): the command word and the operand fields. -/
structure Request (f : Family) where
  /-- CMD, the command word (R61). -/
  cmd : BitVec 32
  operands : Operands f
deriving DecidableEq, Repr

/-- The status of a response (R190). -/
inductive Status where
  /-- 0: the command completed. -/
  | ok
  /-- 1: the command word is not well-formed. -/
  | illegal
  /-- 2: the family lacks the command. -/
  | unsupported
  /-- 3: the command needs a seeded block and VALID = 0. -/
  | notSeeded
deriving DecidableEq, Repr

/-- A response (R65). -/
structure Response (f : Family) where
  status : Status
  /-- D, four words: a block, a word or a counter. -/
  d : Vector (Word f) 4
  /-- E, two words: a key. -/
  e : Vector (Word f) 2
  /-- F, the state summary (R66). -/
  summary : BitVec 8
  /-- BYTES, the output of FILL. -/
  bytes : List Byte
deriving DecidableEq, Repr

/-- A response with the given status, D, E and F all 0 and BYTES empty: what an error answers (R65, R192), and
what a command's own fields are written into. -/
def Response.blank (f : Family) (st : Status) : Response f where
  status := st
  d := Vector.replicate 4 0
  e := Vector.replicate 2 0
  summary := 0
  bytes := []

/-- What the host does to the block, one thing at a time (R48, R210, R213). -/
inductive HostAction (f : Family) where
  /-- Issue one command and wait for its response. -/
  | command (q : Request f)
  /-- Issue a second command before the first has its response, which R213 says the host must not do. -/
  | overlapping (first second : Request f)
  /-- Reset the block, between commands (R210). -/
  | reset
deriving DecidableEq, Repr

/-- Why a step stops with a fault. -/
inductive Fault where
  /-- Raised by `step` alone, on overlapping commands to one block: "A model gives overlapping commands no step"
  (R213; R51; spec/93_implementation_defined.md I2: `stuck`). Safe: the model stops where the spec gives no step. -/
  | overlappingCommands
deriving DecidableEq, Repr

/-- Why a step is refused. -/
inductive Refusal where
  /-- The command has no meaning yet. No arm of `exec` answers this: every command is modelled. Safe. -/
  | notModelled (mnemonic : String)
deriving DecidableEq, Repr

/-- The machine: one block and the host's side of its interface. -/
structure State where
  /-- FAMILY, fixed when the block is built; no step changes it (R3, R25; log entry 1). -/
  family : Family
  /-- CTR, KEY, BUF, CUR and VALID. -/
  regs : Regs family
  /-- The operand fields of the request in hand; every request brings its own (R60; log entry 4). -/
  operands : Operands family
  /-- What the host will do, next first: "The host's command sequence is the program" (D22; log entry 2). -/
  pending : List (HostAction family)
  /-- The responses the host has received, oldest first (R48; log entry 3). -/
  responses : List (Response family)
deriving DecidableEq, Repr

/-- A block of family `f` right after reset (R210), with nothing issued to it yet. -/
def State.resetOf (f : Family) : State where
  family := f
  regs := Regs.reset f
  operands := Operands.zero f
  pending := []
  responses := []

/-- The machine right after reset, for the family of `Config.resetFamily` (log entry 1). -/
def State.reset : State := State.resetOf Config.resetFamily

end Sys2Proof.Machine
end

