-- ==== Sys2Proof/Machine/Ops.lean ====
section
/-! DEFINITION. The operations that the commands share: the word operations of spec/00_scope.md (R7, R8, R10),
the end of a command with a response, and the one way a command ends with an error status (spec/60_exceptions.md
R192, R194). The block has no memory (R40), no exception entry and no return from one (R194, R195): an error
status is an ordinary response, and that is this model's exception operation. -/

namespace Sys2Proof.Machine

/-- `a * b`: the exact product of two W-bit words, a 2W-bit integer (R7). -/
def product {w : Nat} (a b : BitVec w) : BitVec (w + w) := BitVec.ofNat (w + w) (a.toNat * b.toNat)

/-- `mulhi_W(a, b) = (a * b)[2W-1:W]` (R7). -/
def mulHigh {w : Nat} (a b : BitVec w) : BitVec w := (product a b).extractLsb' w w

/-- `mullo_W(a, b) = (a * b)[W-1:0]` (R7). -/
def mulLow {w : Nat} (a b : BitVec w) : BitVec w := (product a b).extractLsb' 0 w

/-- `rotl_64(x, r) = ((x << r) | (x >> (64 - r)))[63:0]`, for 0 < r < 64 (R8). -/
def rotateLeft64 (x : BitVec 64) (r : Nat) : BitVec 64 := (x <<< r) ||| (x >>> (64 - r))

/-- The sum of `b[i] * 256^i` over a byte sequence (R10). -/
def leNat : List Byte → Nat
  | [] => 0
  | b :: bs => b.toNat + 256 * leNat bs

/-- `le_word`: a byte sequence read as a word, byte 0 in bits 7:0 (R10). -/
def leWord (w : Nat) (bytes : List Byte) : BitVec w := BitVec.ofNat w (leNat bytes)

/-- `le_bytes`: the bytes of a word, byte i being bits 8i+7:8i (R10). -/
def leBytes {w : Nat} (word : BitVec w) : List Byte :=
  (List.range (w / 8)).map fun i => word.extractLsb' (8 * i) 8

/-- What a command does to a block of family `f`: the registers after it and its response. This is D2's
`State → Request → State × Response`, with the family and the request's fields already in hand. -/
abbrev Answer (f : Family) := Regs f × Response f

/-- `raise Status(code)`: the command ends with an error response and no state change (R12, R192). -/
def raise {f : Family} (st : Status) (r : Regs f) : Answer f := (r, Response.blank f st)

/-- The end of every command: the registers are written and the response goes to the host, after every
earlier one (R47, R48). -/
def complete (s : State) (ans : Answer s.family) : Host.Outcome State Fault Refusal :=
  .next { s with regs := ans.1, responses := s.responses ++ [ans.2] }

/-- The block takes a request: its operand fields are in hand, and it is no longer pending (R60, R48). -/
def accept (s : State) (q : Request s.family) (rest : List (HostAction s.family)) : State :=
  { s with operands := q.operands, pending := rest }

/-- The answer to a command word that is not well-formed: ILLEGAL, no effect (R69, R192). -/
def answerIllegal (s : State) : Host.Outcome State Fault Refusal := complete s (raise .illegal s.regs)

/-- The host resets the block: every state element takes its reset value (R210). What the host has yet to do
and the responses it has received are its own and stay (log entry 5). -/
def resetBlock (s : State) (rest : List (HostAction s.family)) : State :=
  { s with regs := Regs.reset s.family, operands := Operands.zero s.family, pending := rest }

end Sys2Proof.Machine
end

