-- ==== Sys2Proof/Machine/Operands.lean ====
section
/-! DEFINITION. Every operand form and every result form: the elements of A, K and S that a command reads
(spec/30_encoding.md R62, R63, R64), and the elements of D and E that it writes (R65: every other element
is 0). -/

namespace Sys2Proof.Machine

/-- The counter operand `(A[0], ..., A[N-1])`; the other elements are ignored (R60, R62). -/
def counterOperand {f : Family} (o : Operands f) : Block f :=
  Vector.ofFn fun i => o.a[i.val]'(Nat.lt_of_lt_of_le i.isLt f.words_le_four)

/-- The key operand `(K[0], ..., K[NK-1])`; the other elements are ignored (R60, R63). -/
def keyOperand {f : Family} (o : Operands f) : Key f :=
  Vector.ofFn fun i => o.k[i.val]'(Nat.lt_of_lt_of_le i.isLt f.keyWords_le_two)

/-- The seed operand read as a key: bytes `S[j*WB .. j*WB+WB-1]` make word j, little-endian
(spec/20_memory.md R41; R64). -/
def seedKey {f : Family} (o : Operands f) : Key f :=
  Vector.ofFn fun j => leWord f.width ((o.s.toList.drop (j.val * f.wordBytes)).take f.wordBytes)

/-- A block in `D[0..N-1]`, with 0 in the elements above (R65). -/
def blockResult {f : Family} (b : Block f) : Vector (Word f) 4 :=
  Vector.ofFn fun i => if h : i.val < f.words then b[i.val] else 0

/-- One word in `D[0]`, with 0 in the elements above (R65). -/
def wordResult {f : Family} (w : Word f) : Vector (Word f) 4 := #v[w, 0, 0, 0]

/-- A key in `E[0..NK-1]`, with 0 in the elements above (R65). -/
def keyResult {f : Family} (k : Key f) : Vector (Word f) 2 :=
  Vector.ofFn fun i => if h : i.val < f.keyWords then k[i.val] else 0

end Sys2Proof.Machine
end

