-- ==== Sys2Proof/Machine/Flags.lean ====
section
/-! DEFINITION. The status codes (spec/60_exceptions.md R190), the check for a seeded block (R191), and the
state-summary field F (spec/30_encoding.md R66). The check for the family is made by each command that some
family lacks (R68), where it matches on the family. -/

namespace Sys2Proof.Machine

/-- The code of a status (R190). -/
def Status.code : Status → BitVec 2
  | .ok => 0
  | .illegal => 1
  | .unsupported => 2
  | .notSeeded => 3

/-- `require_seeded()`: with VALID = 0 the command ends with NOT_SEEDED (R191). -/
def requireSeeded {f : Family} (r : Regs f) (effect : Answer f) : Answer f :=
  if r.valid then effect else raise .notSeeded r

/-- `F = (FAMILY_id << 4) | (VALID << 3) | CUR` (R66). -/
def stateSummary {f : Family} (r : Regs f) : BitVec 8 :=
  (f.id.setWidth 8 <<< 4) ||| ((BitVec.ofBool r.valid).setWidth 8 <<< 3) ||| BitVec.ofNat 8 r.cur.val

end Sys2Proof.Machine
end

