-- ==== Sys2Proof/Machine/Control.lean ====
section
/-! DEFINITION. The commands that compute nothing (spec/44_control.md): NOP (R180), RDSTATE (R181) and RDBUF
(R182). They need no seed, exist in every family and write no state. -/

namespace Sys2Proof.Machine

/-- NOP on a block of family `f` (R180). -/
def nopAnswer (f : Family) (r : Regs f) : Answer f := (r, Response.blank f .ok)

/-- RDSTATE on a block of family `f` (R181): CTR into D, KEY into E, the summary into F. -/
def rdstateAnswer (f : Family) (r : Regs f) : Answer f :=
  (r, { Response.blank f .ok with d := blockResult r.ctr, e := keyResult r.key, summary := stateSummary r })

/-- RDBUF on a block of family `f` (R182): BUF into D, the summary into F. It never refills. -/
def rdbufAnswer (f : Family) (r : Regs f) : Answer f :=
  (r, { Response.blank f .ok with d := blockResult r.buf, summary := stateSummary r })

/-- NOP (R180). -/
def execNop (s : State) : Host.Outcome State Fault Refusal := complete s (nopAnswer s.family s.regs)

/-- RDSTATE (R181). -/
def execRdstate (s : State) : Host.Outcome State Fault Refusal := complete s (rdstateAnswer s.family s.regs)

/-- RDBUF (R182). -/
def execRdbuf (s : State) : Host.Outcome State Fault Refusal := complete s (rdbufAnswer s.family s.regs)

end Sys2Proof.Machine
end

