-- ==== Sys2Proof/Machine/Rom.lean ====
section
/-! DEFINITION. The round constants (spec/10_state.md R27: not state, the same in every block of a family; no
command reads or writes them). -/

namespace Sys2Proof.Machine

/-- PARITY (spec/40_threefry.md R80; spec/90_conflicts.md C1). -/
def skeinParity : BitVec 64 := 0x1BD11BDAA9FC1A22

/-- The rotation amounts of group A, `ROT[0..3]` (R81). -/
def rotationsA : List Nat := [16, 42, 12, 31]

/-- The rotation amounts of group B, `ROT[4..7]` (R81). -/
def rotationsB : List Nat := [16, 32, 24, 21]

/-- PM, the multipliers (spec/41_philox.md R100), one for each key word. UNVERIFIED (log entry 10): the source
confirms the pair of PH4x32 only. -/
def multipliers : (v : Philox) → Vector (BitVec v.width) v.keyWords
  | .p2x32 => #v[0xD256D193]
  | .p2x64 => #v[0xD2B74407B1CE6E93]
  | .p4x32 => #v[0xD2511F53, 0xCD9E8D57]
  | .p4x64 => #v[0xD2E7470EE14C6C93, 0xCA5A826395121157]

/-- PW, the Weyl increments (R101), one for each key word. UNVERIFIED (log entry 10): the source confirms the
32-bit pair only. -/
def weylIncrements : (v : Philox) → Vector (BitVec v.width) v.keyWords
  | .p2x32 => #v[0x9E3779B9]
  | .p2x64 => #v[0x9E3779B97F4A7C15]
  | .p4x32 => #v[0x9E3779B9, 0xBB67AE85]
  | .p4x64 => #v[0x9E3779B97F4A7C15, 0xBB67AE8584CAA73B]

end Sys2Proof.Machine
end

