-- ==== Sys2Proof/Machine/Philox.lean ====
section
/-! DEFINITION. The four Philox kernels (spec/41_philox.md rules R102 to R106), and the commands ROUND (R108)
and BUMP (R109), which only the Philox families have (spec/30_encoding.md R68). -/

namespace Sys2Proof.Machine

/-- One round of a 2-word family (R103). -/
def philoxRound2 {w : Nat} (pm : Vector (BitVec w) 1) (x : Vector (BitVec w) 2) (k : Vector (BitVec w) 1) :
    Vector (BitVec w) 2 :=
  #v[mulHigh pm[0] x[0] ^^^ x[1] ^^^ k[0], mulLow pm[0] x[0]]

/-- One round of a 4-word family (R104). -/
def philoxRound4 {w : Nat} (pm : Vector (BitVec w) 2) (x : Vector (BitVec w) 4) (k : Vector (BitVec w) 2) :
    Vector (BitVec w) 4 :=
  #v[mulHigh pm[1] x[2] ^^^ x[1] ^^^ k[0], mulLow pm[1] x[2],
     mulHigh pm[0] x[0] ^^^ x[3] ^^^ k[1], mulLow pm[0] x[0]]

/-- `PH_ROUND(x, k)` (R103, R104). -/
def philoxRound (v : Philox) (x : Block (.philox v)) (k : Key (.philox v)) : Block (.philox v) :=
  match v with
  | .p2x32 => philoxRound2 (multipliers .p2x32) x k
  | .p2x64 => philoxRound2 (multipliers .p2x64) x k
  | .p4x32 => philoxRound4 (multipliers .p4x32) x k
  | .p4x64 => philoxRound4 (multipliers .p4x64) x k

/-- `PH_BUMP(k)`: each key word plus its Weyl increment (R105). -/
def philoxBump (v : Philox) (k : Key (.philox v)) : Key (.philox v) :=
  Vector.ofFn fun i => k[i.val] + (weylIncrements v)[i.val]

/-- The rounds of `PH_MIX` after round 0: before each, the key is bumped (R106). -/
def philoxLaterRounds (v : Philox) : Nat → Block (.philox v) → Key (.philox v) → Block (.philox v)
  | 0, x, _ => x
  | n + 1, x, k => philoxLaterRounds v n (philoxRound v x (philoxBump v k)) (philoxBump v k)

/-- `PH_MIX(counter, key)`: ten rounds, the first under the key as given (R106). -/
def philoxMix (v : Philox) (counter : Block (.philox v)) (key : Key (.philox v)) : Block (.philox v) :=
  philoxLaterRounds v (Family.rounds (.philox v) - 1) (philoxRound v counter key) key

/-- ROUND on a block of family `f` (R108): `require_family(Philox)`, then one round of the operands into D. -/
def roundAnswer : (f : Family) → Regs f → Operands f → Answer f
  | .tf2x64, r, _ => raise .unsupported r
  | .philox v, r, o =>
    (r, { Response.blank (.philox v) .ok with
          d := blockResult (philoxRound v (counterOperand o) (keyOperand o)) })

/-- BUMP on a block of family `f` (R109): `require_family(Philox)`, then the bumped key operand into E. -/
def bumpAnswer : (f : Family) → Regs f → Operands f → Answer f
  | .tf2x64, r, _ => raise .unsupported r
  | .philox v, r, o =>
    (r, { Response.blank (.philox v) .ok with e := keyResult (philoxBump v (keyOperand o)) })

/-- ROUND (R108). -/
def execRound (s : State) : Host.Outcome State Fault Refusal :=
  complete s (roundAnswer s.family s.regs s.operands)

/-- BUMP (R109). -/
def execBump (s : State) : Host.Outcome State Fault Refusal :=
  complete s (bumpAnswer s.family s.regs s.operands)

end Sys2Proof.Machine
end

