-- ==== Sys2Proof/Machine/Threefry.lean ====
section
/-! DEFINITION. The Threefry-2x64-20 kernel (spec/40_threefry.md rules R80 to R86): pure functions on pairs of
64-bit words, with no error path. -/

namespace Sys2Proof.Machine

/-- A pair of 64-bit words: a counter, a key or a block of TF2x64. -/
abbrev Pair64 := Vector (BitVec 64) 2

/-- `TF_KS(key)`, the key schedule (R82). -/
def threefryKeySchedule (key : Pair64) : Vector (BitVec 64) 3 :=
  #v[key[0], key[1], skeinParity ^^^ key[0] ^^^ key[1]]

/-- `TF_INJECT(x, ks, k)` (R83). -/
def threefryInject (x : Pair64) (ks : Vector (BitVec 64) 3) (k : Nat) : Pair64 :=
  #v[x[0] + ks[k % 3]'(Nat.mod_lt _ (by decide)),
     x[1] + ks[(k + 1) % 3]'(Nat.mod_lt _ (by decide)) + BitVec.ofNat 64 k]

/-- `TF_ROUND(x, R)`: add, rotate, exclusive OR (R84). -/
def threefryRound (x : Pair64) (r : Nat) : Pair64 :=
  let x0 := x[0] + x[1]
  #v[x0, rotateLeft64 x[1] r ^^^ x0]

/-- `TF_GROUP_A(x)`: four rounds, with the rotations of group A in order (R85). -/
def threefryGroupA (x : Pair64) : Pair64 := rotationsA.foldl threefryRound x

/-- `TF_GROUP_B(x)`: four rounds, with the rotations of group B in order (R85). -/
def threefryGroupB (x : Pair64) : Pair64 := rotationsB.foldl threefryRound x

/-- `TF_MIX(counter, key)`: six injections around five groups (R86; C2). -/
def threefryMix (counter key : Pair64) : Pair64 :=
  let ks := threefryKeySchedule key
  let x := threefryInject counter ks 0
  let x := threefryInject (threefryGroupA x) ks 1
  let x := threefryInject (threefryGroupB x) ks 2
  let x := threefryInject (threefryGroupA x) ks 3
  let x := threefryInject (threefryGroupB x) ks 4
  threefryInject (threefryGroupA x) ks 5

end Sys2Proof.Machine
end

