-- ==== Sys2Proof/Machine/BlockCore.lean ====
section
/-! DEFINITION. The block core (spec/42_block_core.md): the kernel dispatch (R130), the counter advance (R131),
and the commands MIX (R133), SEED (R134), SETKEY (R135), SETCTR (R136) and GEN (R137). -/

namespace Sys2Proof.Machine

/-- `KERNEL(counter, key)` (R130). -/
def kernel : (f : Family) → Block f → Key f → Block f
  | .tf2x64, counter, key => threefryMix counter key
  | .philox v, counter, key => philoxMix v counter key

/-- The Threefry step of the counter: add 1 to word 0, carry into word 1 when word 0 wraps (R131, R43). -/
def threefryAdvance (ctr : Pair64) : Pair64 :=
  let c0 := ctr[0] + 1
  #v[c0, if c0 = 0 then ctr[1] + 1 else ctr[1]]

/-- `ADVANCE(counter)` (R131): the Threefry step, or nothing for a Philox family (D11). -/
def advance : (f : Family) → Block f → Block f
  | .tf2x64, ctr => threefryAdvance ctr
  | .philox _, ctr => ctr

/-- MIX on a block of family `f` (R133). -/
def mixAnswer (f : Family) (r : Regs f) (o : Operands f) : Answer f :=
  (r, { Response.blank f .ok with d := blockResult (kernel f (counterOperand o) (keyOperand o)) })

/-- SEED on a block of family `f` (R134): KEY from the seed bytes, CTR and BUF zero, CUR = N, VALID = 1. -/
def seedAnswer (f : Family) (o : Operands f) : Answer f :=
  ({ ctr := Vector.replicate f.words 0
     key := seedKey o
     buf := Vector.replicate f.words 0
     cur := Fin.last f.words
     valid := true },
   Response.blank f .ok)

/-- SETKEY on a block of family `f` (R135): `require_family(TF2x64)`, `require_seeded()`, then KEY is the key
operand. -/
def setkeyAnswer : (f : Family) → Regs f → Operands f → Answer f
  | .philox _, r, _ => raise .unsupported r
  | .tf2x64, r, o => requireSeeded r ({ r with key := keyOperand o }, Response.blank .tf2x64 .ok)

/-- SETCTR on a block of family `f` (R136): `require_family(Philox)`, `require_seeded()`, then CTR is the
counter operand. -/
def setctrAnswer : (f : Family) → Regs f → Operands f → Answer f
  | .tf2x64, r, _ => raise .unsupported r
  | .philox v, r, o => requireSeeded r ({ r with ctr := counterOperand o }, Response.blank (.philox v) .ok)

/-- GEN on a block of family `f` (R137): `require_seeded()`, then the block of the current counter goes to D and
the counter advances. BUF and CUR are not touched (D15). -/
def genAnswer (f : Family) (r : Regs f) : Answer f :=
  requireSeeded r
    ({ r with ctr := advance f r.ctr },
     { Response.blank f .ok with d := blockResult (kernel f r.ctr r.key) })

/-- MIX (R133). -/
def execMix (s : State) : Host.Outcome State Fault Refusal := complete s (mixAnswer s.family s.regs s.operands)

/-- SEED (R134). -/
def execSeed (s : State) : Host.Outcome State Fault Refusal := complete s (seedAnswer s.family s.operands)

/-- SETKEY (R135). -/
def execSetkey (s : State) : Host.Outcome State Fault Refusal :=
  complete s (setkeyAnswer s.family s.regs s.operands)

/-- SETCTR (R136). -/
def execSetctr (s : State) : Host.Outcome State Fault Refusal :=
  complete s (setctrAnswer s.family s.regs s.operands)

/-- GEN (R137). -/
def execGen (s : State) : Host.Outcome State Fault Refusal := complete s (genAnswer s.family s.regs)

end Sys2Proof.Machine
end

