-- ==== Sys2Proof/Machine/Streaming.lean ====
section
/-! DEFINITION. The streaming adapter (spec/43_streaming.md): the word take PULL (R160) and the commands NEXT
(R161) and FILL (R162). -/

namespace Sys2Proof.Machine

/-- The refill: BUF becomes the block of the current counter, the counter advances, CUR becomes 0 (R160). -/
def refill {f : Family} (r : Regs f) : Regs f :=
  { r with buf := kernel f r.ctr r.key, ctr := advance f r.ctr, cur := 0 }

theorem refill_cur_lt {f : Family} (r : Regs f) : (refill r).cur.val < f.words := f.words_pos

/-- `w := BUF[CUR]; CUR <- CUR + 1`, while CUR < N (R160). -/
def takeBuffered {f : Family} (r : Regs f) (h : r.cur.val < f.words) : Word f × Regs f :=
  (r.buf[r.cur.val], { r with cur := ⟨r.cur.val + 1, Nat.succ_lt_succ h⟩ })

/-- `PULL()` (R160): refill when CUR = N, then take the word at CUR. -/
def pull {f : Family} (r : Regs f) : Word f × Regs f :=
  if h : r.cur.val < f.words then takeBuffered r h else takeBuffered (refill r) (refill_cur_lt r)

/-- `n` word takes in a row: the words, first taken first, and the registers after them (R162). -/
def takeWords {f : Family} : Nat → Regs f → List (Word f) × Regs f
  | 0, r => ([], r)
  | n + 1, r =>
    let first := pull r
    let others := takeWords n first.2
    (first.1 :: others.1, others.2)

/-- `⌈n / WB⌉`: the number of words FILL takes for `n` bytes (R162). -/
def fillWords (f : Family) (n : Nat) : Nat := (n + f.wordBytes - 1) / f.wordBytes

/-- NEXT on a block of family `f` (R161). -/
def nextAnswer (f : Family) (r : Regs f) : Answer f :=
  requireSeeded r ((pull r).2, { Response.blank f .ok with d := wordResult (pull r).1 })

/-- FILL of `n` bytes on a block of family `f` (R162): the first `n` bytes of the words taken; the last word's
other bytes are dropped (D17). -/
def fillAnswer (f : Family) (n : Nat) (r : Regs f) : Answer f :=
  requireSeeded r
    ((takeWords (fillWords f n) r).2,
     { Response.blank f .ok with bytes := ((takeWords (fillWords f n) r).1.flatMap leBytes).take n })

/-- NEXT (R161). -/
def execNext (s : State) : Host.Outcome State Fault Refusal := complete s (nextAnswer s.family s.regs)

/-- FILL (R162). -/
def execFill (len : Nat) (s : State) : Host.Outcome State Fault Refusal :=
  complete s (fillAnswer s.family len s.regs)

end Sys2Proof.Machine
end

