-- ==== Sys2Proof/Machine/Dispatch.lean ====
section
/-! DEFINITION. One arm per command, each one call of its meaning. -/

namespace Sys2Proof.Machine

def exec (i : Instr) (s : State) : Host.Outcome State Fault Refusal :=
  match i with
  | .nop => Sys2Proof.Machine.execNop s
  | .seed => Sys2Proof.Machine.execSeed s
  | .setkey => Sys2Proof.Machine.execSetkey s
  | .setctr => Sys2Proof.Machine.execSetctr s
  | .gen => Sys2Proof.Machine.execGen s
  | .next => Sys2Proof.Machine.execNext s
  | .fill len => Sys2Proof.Machine.execFill len s
  | .mix => Sys2Proof.Machine.execMix s
  | .round => Sys2Proof.Machine.execRound s
  | .bump => Sys2Proof.Machine.execBump s
  | .rdstate => Sys2Proof.Machine.execRdstate s
  | .rdbuf => Sys2Proof.Machine.execRdbuf s

end Sys2Proof.Machine
end

