-- ==== Sys2Proof/Machine/Step.lean ====
section
/-! DEFINITION. One step of the machine: the host's next action. -/

namespace Sys2Proof.Machine

/-- One step. A command is one atomic step (spec/20_memory.md R47, spec/70_reset_and_hazards.md R220): its
word is decoded, and the command is executed or answered ILLEGAL (spec/60_exceptions.md R191). A reset is one
step (R210). Overlapping commands have no step (R213). With nothing issued, the block holds its state (R201). -/
def step (s : State) : Host.Outcome State Fault Refusal :=
  match s.pending with
  | [] => .next s
  | .command q :: rest =>
    match decode q.cmd with
    | .ok i => exec i (accept s q rest)
    | .error _ => answerIllegal (accept s q rest)
  | .overlapping _ _ :: _ => .fault .overlappingCommands
  | .reset :: rest => .next (resetBlock s rest)

/-- `s` with the table's command word as the host's next command, under the operand fields now in hand (log
entries 9 and 15). -/
def State.withFetchWord (s : State) (nbits w : Nat) : State :=
  { s with pending := .command { cmd := tableWord nbits w, operands := s.operands } :: s.pending }

end Sys2Proof.Machine
end

