-- ==== Sys2Proof/Machine/Assembler.lean ====
section
/-! DEFINITION. The assembler (spec/30_encoding.md rules R72, R73): from a line of text to a line of the
assembler's syntax, and from there to one request for a block of family `f`. `none` is a refusal. The lexical
points R72 leaves open (white space, the case of letters, blank lines, words too large for the family) are log
entry 13. -/

namespace Sys2Proof.Machine

/-- A line of R72's syntax, its numbers read and its seed string as digits. -/
inductive AsmLine where
  | nop
  | seed (digits : List Char)
  | setkey (key : List Nat)
  | setctr (counter : List Nat)
  | gen
  | next
  | fill (n : Nat)
  | mix (counter key : List Nat)
  | round (counter key : List Nat)
  | bump (key : List Nat)
  | rdstate
  | rdbuf
deriving DecidableEq, Repr

/-- Whether a family has a command (R68): SETKEY is Threefry's; SETCTR, ROUND and BUMP are Philox's. -/
def available (i : Instr) (f : Family) : Bool :=
  match i with
  | .nop => true
  | .seed => true
  | .setkey => f == .tf2x64
  | .setctr => f != .tf2x64
  | .gen => true
  | .next => true
  | .fill _ => true
  | .mix => true
  | .round => f != .tf2x64
  | .bump => f != .tf2x64
  | .rdstate => true
  | .rdbuf => true

/-- The command a line stands for; exactly one (R73). -/
def AsmLine.command : AsmLine → Instr
  | .nop => .nop
  | .seed _ => .seed
  | .setkey _ => .setkey
  | .setctr _ => .setctr
  | .gen => .gen
  | .next => .next
  | .fill n => .fill n
  | .mix _ _ => .mix
  | .round _ _ => .round
  | .bump _ => .bump
  | .rdstate => .rdstate
  | .rdbuf => .rdbuf

/-- The counter list of a line, if its command has one. -/
def AsmLine.counterList : AsmLine → Option (List Nat)
  | .setctr c => some c
  | .mix c _ => some c
  | .round c _ => some c
  | .nop => none
  | .seed _ => none
  | .setkey _ => none
  | .gen => none
  | .next => none
  | .fill _ => none
  | .bump _ => none
  | .rdstate => none
  | .rdbuf => none

/-- The key list of a line, if its command has one. -/
def AsmLine.keyList : AsmLine → Option (List Nat)
  | .setkey k => some k
  | .mix _ k => some k
  | .round _ k => some k
  | .bump k => some k
  | .nop => none
  | .seed _ => none
  | .setctr _ => none
  | .gen => none
  | .next => none
  | .fill _ => none
  | .rdstate => none
  | .rdbuf => none

/-- The seed string of a line, if its command has one. -/
def AsmLine.seedDigits : AsmLine → Option (List Char)
  | .seed digits => some digits
  | .nop => none
  | .setkey _ => none
  | .setctr _ => none
  | .gen => none
  | .next => none
  | .fill _ => none
  | .mix _ _ => none
  | .round _ _ => none
  | .bump _ => none
  | .rdstate => none
  | .rdbuf => none

/-- The value of a hexadecimal digit. -/
def hexDigit (ch : Char) : Option Nat :=
  if '0' ≤ ch ∧ ch ≤ '9' then some (ch.toNat - '0'.toNat)
  else if 'a' ≤ ch ∧ ch ≤ 'f' then some (ch.toNat - 'a'.toNat + 10)
  else if 'A' ≤ ch ∧ ch ≤ 'F' then some (ch.toNat - 'A'.toNat + 10)
  else none

/-- The value of a decimal digit. -/
def decimalDigit (ch : Char) : Option Nat :=
  if '0' ≤ ch ∧ ch ≤ '9' then some (ch.toNat - '0'.toNat) else none

/-- The bytes of a seed string, two digits a byte, the first byte first (R72). -/
def seedBytesOf : List Char → Option (List Byte)
  | [] => some []
  | [_] => none
  | hi :: lo :: rest =>
    match hexDigit hi, hexDigit lo, seedBytesOf rest with
    | some h, some l, some bs => some (BitVec.ofNat 8 (16 * h + l) :: bs)
    | _, _, _ => none

/-- Whether a list has `count` elements, each a word of family `f` (R72; R5). -/
def fits (f : Family) (count : Nat) (xs : List Nat) : Bool :=
  xs.length == count && xs.all fun x => decide (x < 2 ^ f.width)

/-- A list laid into `n` elements, with 0 above its end (R72: "It fills every other operand element with 0"). -/
def laidOut (w n : Nat) (xs : List Nat) : Vector (BitVec w) n :=
  Vector.ofFn fun i => BitVec.ofNat w ((xs[i.val]?).getD 0)

/-- Assemble one line for a block of family `f` (R72). -/
def assembleLine (f : Family) (line : AsmLine) : Option (Request f) :=
  let c := line.counterList.getD []
  let k := line.keyList.getD []
  match seedBytesOf (line.seedDigits.getD []) with
  | none => none
  | some bytes =>
    if available line.command f ∧ line.command.wf
        ∧ (line.counterList.isSome → fits f f.words c)
        ∧ (line.keyList.isSome → fits f f.keyWords k)
        ∧ (line.seedDigits.isSome → bytes.length = f.seedBytes) then
      some { cmd := encode line.command
             operands := { a := laidOut f.width 4 c
                           k := laidOut f.width 2 k
                           s := laidOut 8 16 (bytes.map BitVec.toNat) } }
    else none

/-- A token of a line of text. -/
inductive Token where
  | word (chars : List Char)
  | quoted (chars : List Char)
  | comma
  | slash
deriving DecidableEq, Repr

/-- The word read so far, as a token, if there is one. -/
def flushWord (acc : List Char) : List Token := if acc.isEmpty then [] else [.word acc.reverse]

/-- The tokens of a line, up to its comment. `acc` is the word being read, last character first; `quote` is the
seed string being read, if one is. -/
def tokensFrom : List Char → (acc : List Char) → (quote : Option (List Char)) → Option (List Token)
  | [], acc, none => some (flushWord acc)
  | [], _, some _ => none
  | ch :: rest, acc, some q =>
    if ch = '"' then (tokensFrom rest acc none).map fun ts => .quoted q.reverse :: ts
    else tokensFrom rest acc (some (ch :: q))
  | ch :: rest, acc, none =>
    if ch = ';' then some (flushWord acc)
    else if ch = ' ' ∨ ch = '\t' then (tokensFrom rest [] none).map fun ts => flushWord acc ++ ts
    else if ch = ',' then (tokensFrom rest [] none).map fun ts => flushWord acc ++ .comma :: ts
    else if ch = '/' then (tokensFrom rest [] none).map fun ts => flushWord acc ++ .slash :: ts
    else if ch = '"' then (tokensFrom rest [] (some [])).map fun ts => flushWord acc ++ ts
    else tokensFrom rest (ch :: acc) none

/-- Digits to a number, in a base. -/
def digitsToNat (base : Nat) (digit : Char → Option Nat) : List Char → (acc : Nat) → Option Nat
  | [], acc => some acc
  | ch :: rest, acc =>
    match digit ch with
    | some d => digitsToNat base digit rest (base * acc + d)
    | none => none

/-- A number: hexadecimal with `0x`, or decimal (R72). -/
def numberOf : List Char → Option Nat
  | [] => none
  | '0' :: 'x' :: ds => if ds.isEmpty then none else digitsToNat 16 hexDigit ds 0
  | ds => digitsToNat 10 decimalDigit ds 0

/-- A list of one or more numbers separated by commas, and the tokens after it (R72). -/
def numbersOf : List Token → Option (List Nat × List Token)
  | .word cs :: .comma :: rest =>
    match numberOf cs, numbersOf rest with
    | some n, some (ns, after) => some (n :: ns, after)
    | _, _ => none
  | .word cs :: rest => (numberOf cs).map fun n => ([n], rest)
  | _ => none

/-- One list of numbers, and nothing after it. -/
def oneList (ts : List Token) : Option (List Nat) :=
  match numbersOf ts with
  | some (xs, []) => some xs
  | _ => none

/-- Two lists of numbers with a `/` between them, and nothing after them. -/
def twoLists (ts : List Token) : Option (List Nat × List Nat) :=
  match numbersOf ts with
  | some (xs, .slash :: rest) => (oneList rest).map fun ys => (xs, ys)
  | _ => none

/-- A line of R72's syntax from its tokens. -/
def lineOf : List Token → Option AsmLine
  | [.word ['N', 'O', 'P']] => some .nop
  | [.word ['S', 'E', 'E', 'D'], .quoted digits] => some (.seed digits)
  | .word ['S', 'E', 'T', 'K', 'E', 'Y'] :: ts => (oneList ts).map .setkey
  | .word ['S', 'E', 'T', 'C', 'T', 'R'] :: ts => (oneList ts).map .setctr
  | [.word ['G', 'E', 'N']] => some .gen
  | [.word ['N', 'E', 'X', 'T']] => some .next
  | [.word ['F', 'I', 'L', 'L'], .word n] => (numberOf n).map .fill
  | .word ['M', 'I', 'X'] :: ts => (twoLists ts).map fun p => .mix p.1 p.2
  | .word ['R', 'O', 'U', 'N', 'D'] :: ts => (twoLists ts).map fun p => .round p.1 p.2
  | .word ['B', 'U', 'M', 'P'] :: ts => (oneList ts).map .bump
  | [.word ['R', 'D', 'S', 'T', 'A', 'T', 'E']] => some .rdstate
  | [.word ['R', 'D', 'B', 'U', 'F']] => some .rdbuf
  | _ => none

/-- Assemble one line of text: one command, or none for a line that holds only white space or a comment (R72,
R73). -/
def assembleText (f : Family) (text : List Char) : Option (List (Request f)) :=
  match tokensFrom text [] none with
  | none => none
  | some [] => some []
  | some ts =>
    match lineOf ts with
    | none => none
    | some line => (assembleLine f line).map fun q => [q]

/-- Assemble a program, one command a line: the host's actions, in order (R72). -/
def assembleProgram (f : Family) : List (List Char) → Option (List (HostAction f))
  | [] => some []
  | text :: rest =>
    match assembleText f text, assembleProgram f rest with
    | some qs, some acts => some (qs.map .command ++ acts)
    | _, _ => none

end Sys2Proof.Machine
end

