-- ==== Sys2Proof/Machine/Units.lean ====
section
/-! DEFINITION. A system of any number of blocks (spec/60_exceptions.md R199, spec/20_memory.md R52): each has
a state of its own, and they share nothing. Blocks are told apart by their place in a list; "There is no instance
identifier" (R199), so the place is the model's and no block can read it. -/

namespace Sys2Proof.Machine

/-- The states of the blocks of a system. -/
abbrev Units := List State

/-- One step of the system: the block at place `n` takes a step. Any order of such steps is a run (R52: "zero
coordination"). A place with no block leaves the system as it is. -/
def stepUnit (units : Units) (n : Nat) : Host.Outcome Units Fault Refusal :=
  match units[n]? with
  | none => .next units
  | some s =>
    match step s with
    | .next t => .next (units.set n t)
    | .fault why => .fault why
    | .refused why => .refused why

end Sys2Proof.Machine
end

