-- ==== Sys2Proof/Safety.lean ====
section
/-! DEFINITION. The terms in which claims are made: running several steps, the status a command word must get
(spec/60_exceptions.md R191, written on the word's own bits), the integer a counter stands for
(spec/00_scope.md R11), the words of a stream (spec/43_streaming.md R163, R164), and the invariant of a run. -/

namespace Sys2Proof.Machine

/-- `k` steps, stopping at the first fault or refusal. -/
def run : Nat → State → Host.Outcome State Fault Refusal
  | 0, s => .next s
  | k + 1, s =>
    match step s with
    | .next t => run k t
    | .fault why => .fault why
    | .refused why => .refused why

/-- R69's condition, as written there, on the number that a command word is. -/
abbrev wellFormedWord (cmd : BitVec 32) : Prop :=
  cmd.toNat % 16 ≤ 0xA
  ∧ cmd.toNat / 64 % 1024 = 0
  ∧ (cmd.toNat / 16 % 4 = 0 ∨ (cmd.toNat % 16 = 0xA ∧ cmd.toNat / 16 % 4 = 1))
  ∧ (cmd.toNat / 65536 = 0 ∨ cmd.toNat % 16 = 0x6)

/-- `check(CMD)`, as R191 writes it: the status of the first check that fails, or OK. -/
def checkedStatus (f : Family) (valid : Bool) (cmd : BitVec 32) : Status :=
  let op := cmd.toNat % 16
  if ¬ wellFormedWord cmd then .illegal
  else if (op = 0x2 ∧ f ≠ .tf2x64) ∨ (op ∈ [0x3, 0x8, 0x9] ∧ f = .tf2x64) then .unsupported
  else if op ∈ [0x2, 0x3, 0x4, 0x5, 0x6] ∧ valid = false then .notSeeded
  else .ok

/-- Whether a command needs a seeded block (R190: SETKEY, SETCTR, GEN, NEXT, FILL). -/
def needsSeed : Instr → Bool
  | .nop => false
  | .seed => false
  | .setkey => true
  | .setctr => true
  | .gen => true
  | .next => true
  | .fill _ => true
  | .mix => false
  | .round => false
  | .bump => false
  | .rdstate => false
  | .rdbuf => false

/-- The integer of a list of words, word 0 least significant (R11). -/
def wordsValue {w : Nat} : List (BitVec w) → Nat
  | [] => 0
  | x :: xs => x.toNat + 2 ^ w * wordsValue xs

/-- The integer a counter stands for (R11). -/
def counterValue {w n : Nat} (ctr : Vector (BitVec w) n) : Nat := wordsValue ctr.toList

/-- The Threefry counter that stands for `n` modulo 2^128 (R11, R43). -/
def threefryCounter (n : Nat) : Pair64 := #v[BitVec.ofNat 64 n, BitVec.ofNat 64 (n / 2 ^ 64)]

/-- Word `p` of the Threefry stream of a key: word `p mod 2` of the block at counter `p / 2` (R163). -/
def threefryStreamWord (key : Pair64) (p : Nat) : BitVec 64 :=
  (threefryMix (threefryCounter (p / 2)) key)[p % 2]'(Nat.mod_lt _ (by decide))

/-- Word `p` of the stream of a Philox key with no SETCTR: word `p mod N` of the block at counter 0 (R164). -/
def philoxStreamWord (v : Philox) (key : Key (.philox v)) (p : Nat) : BitVec v.width :=
  (philoxMix v (Vector.replicate v.words 0) key)[p % v.words]'(Nat.mod_lt _ (Family.words_pos (.philox v)))

/-- The commands of a stream (R163: "receive only NEXT and FILL commands"). -/
inductive StreamCommand where
  | next
  | fill (n : Nat)
deriving DecidableEq, Repr

/-- The command itself. -/
def StreamCommand.instr : StreamCommand → Instr
  | .next => .next
  | .fill n => .fill n

/-- The number of words it takes (R163: "counting every word a FILL takes in full"). -/
def StreamCommand.words (f : Family) : StreamCommand → Nat
  | .next => 1
  | .fill n => (n + f.wordBytes - 1) / f.wordBytes

/-- The host's action that issues it, under any operand fields. -/
def StreamCommand.action {f : Family} (c : StreamCommand) (o : Operands f) : HostAction f :=
  .command { cmd := encode c.instr, operands := o }

/-- The response to a command that finds `p` words of the stream `word` already taken. -/
def StreamCommand.response {f : Family} (word : Nat → Word f) (p : Nat) : StreamCommand → Response f
  | .next => { Response.blank f .ok with d := #v[word p, 0, 0, 0] }
  | .fill n =>
    { Response.blank f .ok with
      bytes := (((List.range (StreamCommand.words f (.fill n))).map fun j => word (p + j)).flatMap leBytes).take n }

/-- The responses to a sequence of commands, from `p` words on. -/
def streamResponses {f : Family} (word : Nat → Word f) : Nat → List StreamCommand → List (Response f)
  | _, [] => []
  | p, c :: cs => c.response word p :: streamResponses word (p + c.words f) cs

/-- The number of words a sequence of commands takes. -/
def streamWords (f : Family) (cs : List StreamCommand) : Nat := (cs.map (StreamCommand.words f)).sum

/-- What a response of a block of family `f` can be (R65, R66, R192; spec/93_implementation_defined.md I11, I12):
elements beyond N and NK are 0; an error answers nothing but its status; F, where it is written, reports this
family's id, a cursor in range and bit 7 = 0; BYTES is no longer than LEN can ask for. -/
def Response.Legal {f : Family} (r : Response f) : Prop :=
  (∀ i : Fin 4, f.words ≤ i.val → r.d[i.val] = 0)
  ∧ (∀ j : Fin 2, f.keyWords ≤ j.val → r.e[j.val] = 0)
  ∧ (r.status ≠ .ok → r = Response.blank f r.status)
  ∧ (r.summary = 0 ∨ (r.summary.toNat / 16 = f.id.toNat ∧ r.summary.toNat % 8 ≤ f.words))
  ∧ r.bytes.length < 65536

/-- The invariant of a run: until the block is seeded its registers are those of reset (R24, R210, R211), and
every response the host has received is one the block can give. CUR is at most N by its type (R26). -/
def Inv (s : State) : Prop :=
  (s.regs.valid = false → s.regs = Regs.reset s.family) ∧ ∀ r ∈ s.responses, r.Legal

end Sys2Proof.Machine
end

