-- ==== Sys2Proof/Certificates/Slice0/Obligations.lean ====
section
/-! DEFINITION. The statements for the provers. Each docstring names the rule of spec/ that its statement
formalises. A statement whose conclusion is `exec i s = .next t` says where the command completes; the `t` it
gives is the frame as well: FAMILY, the operand fields, what is pending and every response already received are
those of `s`. -/

open Sys2Proof Sys2Proof.Machine

/-! ## Command words -/

/-- R61, R67: no bit of a command's word is dropped: every well-formed command decodes from its own encoding. -/
def Obligations.DecodeOfEncodeIsTheCommand : Prop :=
  ∀ i : Instr, i.wf = true → decode (encode i) = .ok i

/-- R67, R71: each accepted word has one meaning: what a word decodes to encodes to that word, and is
well-formed. -/
def Obligations.EncodeOfDecodeIsTheWord : Prop :=
  ∀ (cmd : BitVec 32) (i : Instr), decode cmd = .ok i → encode i = cmd ∧ i.wf = true

/-- R69: the decoder accepts exactly the words that meet R69's four conditions, and a request whose word does not
returns ILLEGAL and has no effect: the registers are untouched, and the response is an error's. The three words
that R69 names do not meet them. -/
def Obligations.IllformedWordsAreIllegalWithNoEffect : Prop :=
  (∀ cmd : BitVec 32, (∃ i, decode cmd = .ok i) ↔ wellFormedWord cmd)
  ∧ (∀ (s : State) (q : Request s.family) (rest : List (HostAction s.family)),
      s.pending = .command q :: rest → ¬ wellFormedWord q.cmd →
      step s = .next { s with operands := q.operands, pending := rest,
                              responses := s.responses ++ [Response.blank s.family .illegal] })
  ∧ ¬ wellFormedWord 0x0000002A ∧ ¬ wellFormedWord 0x00010005 ∧ ¬ wellFormedWord 0x00000045

/-- The words of R71's table, written out from R61 and R67, decode to the commands they stand for. -/
def Obligations.WrittenOutWordsDecode : Prop :=
  decode 0b00000000000000000000000000000000#32 = .ok .nop
  ∧ decode 0b00000000000000000000000000000001#32 = .ok .seed
  ∧ decode 0b00000000000000000000000000000010#32 = .ok .setkey
  ∧ decode 0b00000000000000000000000000000011#32 = .ok .setctr
  ∧ decode 0b00000000000000000000000000000100#32 = .ok .gen
  ∧ decode 0b00000000000000000000000000000101#32 = .ok .next
  ∧ decode 0b00000000000010110000000000000110#32 = .ok (.fill 11)
  ∧ decode 0b11111111111111110000000000000110#32 = .ok (.fill 65535)
  ∧ decode 0b00000000000000000000000000000111#32 = .ok .mix
  ∧ decode 0b00000000000000000000000000001000#32 = .ok .round
  ∧ decode 0b00000000000000000000000000001001#32 = .ok .bump
  ∧ decode 0b00000000000000000000000000001010#32 = .ok .rdstate
  ∧ decode 0b00000000000000000000000000011010#32 = .ok .rdbuf

/-! ## Steps and statuses -/

/-- A step on a request whose word decodes to a command is that command, executed with the request's operand
fields in hand and the request no longer pending (R47, R60). How the host's actions are queued is the model's
choice (log entries 2 and 4). -/
def Obligations.StepRunsTheDecodedCommand : Prop :=
  ∀ (s : State) (q : Request s.family) (rest : List (HostAction s.family)) (i : Instr),
    s.pending = .command q :: rest → decode q.cmd = .ok i →
    step s = exec i { s with operands := q.operands, pending := rest }

/-- A step stops with a fault exactly on overlapping commands, and is never refused: in every other state the machine
has a next state, whether the host issues a command (R193), an ill-formed word (R191, R192) or a reset (R210), or issues
nothing (R201). R213 and R51 give overlapping commands no step; that they are a host action answered by a fault is the
model's inference (DEDUCED, log entry 6), and that an idle block takes a step that changes nothing is another (DEDUCED,
log entry 7). -/
def Obligations.OnlyOverlappingCommandsHaveNoStep : Prop :=
  ∀ s : State,
    ((∃ q1 q2 rest, s.pending = .overlapping q1 q2 :: rest) → step s = .fault .overlappingCommands)
    ∧ ((¬ ∃ q1 q2 rest, s.pending = .overlapping q1 q2 :: rest) → ∃ t, step s = .next t)

/-- With nothing issued to it, the block holds its state (R201); a reset takes nothing from what the host has yet
to do or has received (the model's choice, log entry 5). -/
def Obligations.IdleAndResetKeepTheHostsSide : Prop :=
  (∀ s : State, s.pending = [] → step s = .next s)
  ∧ ∀ (s : State) (rest : List (HostAction s.family)), s.pending = .reset :: rest →
      ∃ (r : Regs s.family) (o : Operands s.family),
        step s = .next { s with regs := r, operands := o, pending := rest }

/-- R210: what reset leaves, at power-on and after a host reset of any state; FAMILY does not change. -/
def Obligations.ResetGivesTheResetValues : Prop :=
  let AtReset (f : Family) (r : Regs f) : Prop :=
    (∀ i (_ : i < f.words), r.ctr[i] = 0) ∧ (∀ j (_ : j < f.keyWords), r.key[j] = 0)
    ∧ (∀ i (_ : i < f.words), r.buf[i] = 0) ∧ r.cur.val = f.words ∧ r.valid = false
  (∀ f : Family, (State.resetOf f).family = f ∧ AtReset f (State.resetOf f).regs)
  ∧ (∃ f : Family, State.reset = State.resetOf f)
  ∧ ∀ (s : State) (rest : List (HostAction s.family)), s.pending = .reset :: rest →
      ∃ t, step s = .next t ∧ t.family = s.family ∧ AtReset t.family t.regs

/-- R191: the status of the response to any command word, in any state, is that of the first check that fails, in
R191's order, or OK when none does. -/
def Obligations.StatusIsTheFirstFailingCheck : Prop :=
  ∀ (s : State) (q : Request s.family) (rest : List (HostAction s.family)),
    s.pending = .command q :: rest →
    ∃ (r : Regs s.family) (resp : Response s.family),
      step s = .next { s with regs := r, operands := q.operands, pending := rest,
                              responses := s.responses ++ [resp] }
      ∧ resp.status = checkedStatus s.family s.regs.valid q.cmd

/-- R190: the codes of the statuses, and which commands can answer each: ILLEGAL is never the answer of a decoded
command; UNSUPPORTED is SETKEY's in the Philox families, and SETCTR's, ROUND's and BUMP's in TF2x64; NOT_SEEDED is
SETKEY's, SETCTR's, GEN's, NEXT's and FILL's, with VALID = 0. -/
def Obligations.StatusCodesAndTheirCauses : Prop :=
  (Status.code .ok = 0 ∧ Status.code .illegal = 1 ∧ Status.code .unsupported = 2 ∧ Status.code .notSeeded = 3)
  ∧ ∀ (s : State) (i : Instr), ∃ (r : Regs s.family) (resp : Response s.family),
      exec i s = .next { s with regs := r, responses := s.responses ++ [resp] }
      ∧ resp.status ≠ .illegal
      ∧ (resp.status = .unsupported ↔
          (i = .setkey ∧ s.family ≠ .tf2x64) ∨ ((i = .setctr ∨ i = .round ∨ i = .bump) ∧ s.family = .tf2x64))
      ∧ (resp.status = .notSeeded ↔
          s.regs.valid = false ∧ ((i = .setkey ∧ s.family = .tf2x64) ∨ (i = .setctr ∧ s.family ≠ .tf2x64)
            ∨ i = .gen ∨ i = .next ∨ ∃ n, i = .fill n))

/-- R192: a command that answers a status other than OK changes none of CTR, KEY, BUF, CUR and VALID, and its
response has D, E and F all 0 and BYTES empty. -/
def Obligations.ErrorStatusChangesNoState : Prop :=
  ∀ (s : State) (q : Request s.family) (rest : List (HostAction s.family)),
    s.pending = .command q :: rest → checkedStatus s.family s.regs.valid q.cmd ≠ .ok →
    ∃ resp : Response s.family,
      step s = .next { s with operands := q.operands, pending := rest, responses := s.responses ++ [resp] }
      ∧ resp.status ≠ .ok ∧ (∀ i (_ : i < 4), resp.d[i] = 0) ∧ (∀ j (_ : j < 2), resp.e[j] = 0)
      ∧ resp.summary = 0 ∧ resp.bytes = []

/-- R193: a command that the family has, on a seeded block where it needs one, completes with status OK. -/
def Obligations.SupportedCommandsSucceed : Prop :=
  ∀ (s : State) (i : Instr), available i s.family = true → (needsSeed i = true → s.regs.valid = true) →
    ∃ (r : Regs s.family) (resp : Response s.family),
      exec i s = .next { s with regs := r, responses := s.responses ++ [resp] } ∧ resp.status = .ok

/-- R29 and the "Written by" column of spec/10_state.md: a command changes only the elements its rule names. CTR is
written by SEED, SETCTR, GEN, NEXT and FILL; KEY by SEED and SETKEY; BUF and CUR by SEED, NEXT and FILL; VALID by
SEED. Every command gives exactly one response and leaves FAMILY, the operand fields, what is pending and the
earlier responses as they were. -/
def Obligations.CommandsWriteOnlyTheirElements : Prop :=
  ∀ (s t : State) (i : Instr), exec i s = .next t →
    ∃ (r : Regs s.family) (resp : Response s.family),
      t = { s with regs := r, responses := s.responses ++ [resp] }
      ∧ (i ≠ .seed → i ≠ .setctr → i ≠ .gen → i ≠ .next → (∀ n, i ≠ .fill n) → r.ctr = s.regs.ctr)
      ∧ (i ≠ .seed → i ≠ .setkey → r.key = s.regs.key)
      ∧ (i ≠ .seed → i ≠ .next → (∀ n, i ≠ .fill n) → r.buf = s.regs.buf ∧ r.cur = s.regs.cur)
      ∧ (i ≠ .seed → r.valid = s.regs.valid)

/-- R24: VALID is 0 at reset, SEED sets it, nothing clears it but reset, and while it is 0 the commands SETKEY,
SETCTR, GEN, NEXT and FILL, in a family that has them, answer NOT_SEEDED and nothing else. -/
def Obligations.ValidIsSetBySeedAndClearedByReset : Prop :=
  (∀ f : Family, (State.resetOf f).regs.valid = false)
  ∧ (∀ s t : State, exec .seed s = .next t → t.regs.valid = true)
  ∧ (∀ s t : State, step s = .next t → s.regs.valid = true →
      (¬ ∃ rest, s.pending = .reset :: rest) → t.regs.valid = true)
  ∧ ∀ (s : State) (i : Instr), s.regs.valid = false → needsSeed i = true → available i s.family = true →
      exec i s = .next { s with responses := s.responses ++ [Response.blank s.family .notSeeded] }

/-- R3, R25: no step changes FAMILY. That FAMILY stands in the state at all is the model's choice (log entry
1). -/
def Obligations.NoStepChangesTheFamily : Prop :=
  ∀ s t : State, step s = .next t → t.family = s.family

/-! ## Word operations -/

/-- R7: the product is exact, and the halves are its high and low W bits; nothing is lost. -/
def Obligations.WideMultiplyLosesNothing : Prop :=
  ∀ (w : Nat) (a b : BitVec w),
    (product a b).toNat = a.toNat * b.toNat
    ∧ (mulHigh a b).toNat = a.toNat * b.toNat / 2 ^ w
    ∧ (mulLow a b).toNat = a.toNat * b.toNat % 2 ^ w

/-- R8: a rotation by r, 0 < r < 64, moves bit i to bit (i + r) mod 64; the formula is R8's. -/
def Obligations.RotationMovesEachBit : Prop :=
  ∀ (x : BitVec 64) (r : Nat), 0 < r → r < 64 →
    rotateLeft64 x r = (x <<< r ||| x >>> (64 - r))
    ∧ ∀ i : Nat, i < 64 → (rotateLeft64 x r).getLsbD ((i + r) % 64) = x.getLsbD i

/-- R10: `le_word` is the sum of b[i] * 2^(8i), byte i of `le_bytes` is bits 8i+7:8i, and the two undo each
other, for a word of WB whole bytes. -/
def Obligations.LittleEndianPackingRoundTrips : Prop :=
  ∀ wb : Nat,
    (∀ bs : List Byte, bs.length = wb →
      (leWord (8 * wb) bs).toNat = ∑ i : Fin bs.length, bs[i].toNat * 2 ^ (8 * i.val)
      ∧ leBytes (leWord (8 * wb) bs) = bs)
    ∧ ∀ x : BitVec (8 * wb),
        (leBytes x).length = wb
        ∧ (∀ i : Nat, i < wb → (leBytes x)[i]? = some (x.extractLsb' (8 * i) 8))
        ∧ leWord (8 * wb) (leBytes x) = x

/-! ## Kernels -/

/-- R82, R83, R84: the parts of the Threefry kernel, on numbers and bits: the three words of the key schedule are the
key and what makes their exclusive OR the parity constant (R80); an injection adds ks[k % 3] to x[0] and
ks[(k+1) % 3] + k to x[1], modulo 2^64; a round adds x[1] into x[0], and the new x[1] is the rotated old one,
exclusive OR the NEW x[0]. -/
def Obligations.ThreefryPartsOnNumbersAndBits : Prop :=
  (∀ key : Pair64,
    let ks := threefryKeySchedule key
    ks[0] = key[0] ∧ ks[1] = key[1] ∧ ks[0] ^^^ ks[1] ^^^ ks[2] = 0x1BD11BDAA9FC1A22)
  ∧ (∀ (x : Pair64) (ks : Vector (BitVec 64) 3) (k : Nat), k ≤ 5 →
      (threefryInject x ks k)[0].toNat = (x[0].toNat + (ks[k % 3]'(Nat.mod_lt _ (by decide))).toNat) % 2 ^ 64
      ∧ (threefryInject x ks k)[1].toNat =
          (x[1].toNat + (ks[(k + 1) % 3]'(Nat.mod_lt _ (by decide))).toNat + k) % 2 ^ 64)
  ∧ ∀ (x : Pair64) (r : Nat), 0 < r → r < 64 →
      (threefryRound x r)[0].toNat = (x[0].toNat + x[1].toNat) % 2 ^ 64
      ∧ ∀ i : Nat, i < 64 →
          (threefryRound x r)[1].getLsbD ((i + r) % 64) =
            (x[1].getLsbD i ^^ (threefryRound x r)[0].getLsbD ((i + r) % 64))

/-- R86's other form of the schedule: round r, for r = 0 to 19, uses `ROT[r % 8]`, and injection r / 4 + 1 follows
every round with r % 4 = 3; injection 0 comes first. -/
def Obligations.ThreefryScheduleAsTwentyRounds : Prop :=
  ∀ counter key : Pair64,
    threefryMix counter key =
      (List.range 20).foldl
        (fun x r =>
          let y := threefryRound x (([16, 42, 12, 31, 16, 32, 24, 21] : List Nat).getD (r % 8) 0)
          if r % 4 = 3 then threefryInject y (threefryKeySchedule key) (r / 4 + 1) else y)
        (threefryInject counter (threefryKeySchedule key) 0)

/-- R87 (which the spec marks as derived): under every key the Threefry kernel is a bijection of pairs of 64-bit
words. -/
def Obligations.ThreefryMixIsBijective : Prop :=
  ∀ key : Pair64, Function.Bijective fun counter => threefryMix counter key

/-- R107 (which the spec marks as derived): under every key a Philox round, and the ten-round kernel, are
bijections of counters, in each of the four families. It rests on every multiplier being odd, and the values of the
multipliers are UNVERIFIED (log entry 10). -/
def Obligations.PhiloxRoundAndMixAreBijective : Prop :=
  ∀ (v : Philox) (key : Key (.philox v)),
    (Function.Bijective fun counter => philoxRound v counter key)
    ∧ Function.Bijective fun counter => philoxMix v counter key

/-- R106: the kernel is ten rounds, and "The round key of round r is the key plus r times the Weyl increment,
modulo 2^W" (which the spec marks as derived). -/
def Obligations.PhiloxRoundKeysAreKeyPlusMultiples : Prop :=
  ∀ (v : Philox) (counter : Block (.philox v)) (key : Key (.philox v)),
    philoxMix v counter key =
      (List.range 10).foldl
        (fun x r => philoxRound v x
          (Vector.ofFn fun j => key[j.val] + BitVec.ofNat v.width r * (weylIncrements v)[j.val]))
        counter

/-- R131: for Threefry, ADVANCE adds 1 to word 0 and carries into word 1 when word 0 wraps, which is +1 on the
128-bit counter modulo 2^128; for every Philox family the counter does not change. -/
def Obligations.AdvanceIsIncrementOrIdentity : Prop :=
  (∀ ctr : Pair64,
    (advance .tf2x64 ctr)[0] = ctr[0] + 1
    ∧ (advance .tf2x64 ctr)[1] = (if ctr[0] = 0xFFFFFFFFFFFFFFFF then ctr[1] + 1 else ctr[1])
    ∧ counterValue (advance .tf2x64 ctr) = (counterValue ctr + 1) % 2 ^ 128)
  ∧ ∀ (v : Philox) (ctr : Block (.philox v)), advance (.philox v) ctr = ctr

/-- R132 (which the spec marks as derived): the Threefry counter visits every one of the 2^128 values before it
repeats, and is back where it began after 2^128 advances; a Philox counter stays put. -/
def Obligations.ThreefryCounterHasFullPeriod : Prop :=
  (∀ (ctr : Pair64) (n : Nat), (advance .tf2x64)^[n] ctr = ctr ↔ 2 ^ 128 ∣ n)
  ∧ (∀ ctr other : Pair64, ∃ n < 2 ^ 128, (advance .tf2x64)^[n] ctr = other)
  ∧ ∀ (v : Philox) (ctr : Block (.philox v)) (n : Nat), (advance (.philox v))^[n] ctr = ctr

/-! ## The block core's commands -/

/-- R134, R41: SEED, in every family and state, puts seed byte j*WB + i in bits 8i+7:8i of KEY[j], zeroes CTR and
BUF, empties the buffer, sets VALID and answers OK. -/
def Obligations.SeedLoadsTheKeyAndRestarts : Prop :=
  ∀ s : State, ∃ r : Regs s.family,
    exec .seed s = .next { s with regs := r, responses := s.responses ++ [Response.blank s.family .ok] }
    ∧ (∀ j (_ : j < s.family.keyWords) (i : Nat), i < s.family.wordBytes →
        s.operands.s.toList[j * s.family.wordBytes + i]? = some (r.key[j].extractLsb' (8 * i) 8))
    ∧ (∀ i (_ : i < s.family.words), r.ctr[i] = 0) ∧ (∀ i (_ : i < s.family.words), r.buf[i] = 0)
    ∧ r.cur.val = s.family.words ∧ r.valid = true

/-- R135: SETKEY on a seeded Threefry block writes KEY from K[0..1] and nothing else; on an unseeded one it
answers NOT_SEEDED, and on a Philox block UNSUPPORTED. -/
def Obligations.SetkeyWritesTheKeyAlone : Prop :=
  (∀ (r : Regs .tf2x64) (o : Operands .tf2x64) (p : List (HostAction .tf2x64)) (x : List (Response .tf2x64)),
    exec .setkey ⟨.tf2x64, r, o, p, x⟩ =
      .next (if r.valid = true
        then ⟨.tf2x64, { r with key := #v[o.k[0], o.k[1]] }, o, p, x ++ [Response.blank .tf2x64 .ok]⟩
        else ⟨.tf2x64, r, o, p, x ++ [Response.blank .tf2x64 .notSeeded]⟩))
  ∧ ∀ s : State, s.family ≠ .tf2x64 →
      exec .setkey s = .next { s with responses := s.responses ++ [Response.blank s.family .unsupported] }

/-- R136: SETCTR on a seeded Philox block writes CTR from A[0..N-1] and nothing else; on an unseeded one it answers
NOT_SEEDED, and on a Threefry block UNSUPPORTED. -/
def Obligations.SetctrWritesTheCounterAlone : Prop :=
  (∀ s : State, s.family ≠ .tf2x64 → s.regs.valid = true →
    ∃ ctr : Block s.family,
      exec .setctr s = .next { s with regs := { s.regs with ctr := ctr },
                                      responses := s.responses ++ [Response.blank s.family .ok] }
      ∧ ∀ i (h : i < s.family.words),
          ctr[i] = s.operands.a[i]'(Nat.lt_of_lt_of_le h s.family.words_le_four))
  ∧ (∀ s : State, s.family ≠ .tf2x64 → s.regs.valid = false →
      exec .setctr s = .next { s with responses := s.responses ++ [Response.blank s.family .notSeeded] })
  ∧ ∀ s : State, s.family = .tf2x64 →
      exec .setctr s = .next { s with responses := s.responses ++ [Response.blank s.family .unsupported] }

/-- R137: GEN on a seeded block puts the block of the current counter in D[0..N-1], 0 above, and advances CTR; BUF,
CUR and KEY are not touched; on an unseeded block it answers NOT_SEEDED. -/
def Obligations.GenAnswersTheBlockAndAdvances : Prop :=
  (∀ s : State, s.regs.valid = true →
    ∃ d : Vector (Word s.family) 4,
      exec .gen s = .next { s with
        regs := { s.regs with ctr := advance s.family s.regs.ctr },
        responses := s.responses ++ [{ Response.blank s.family .ok with d := d }] }
      ∧ ∀ i (_ : i < 4),
          d[i] = if h : i < s.family.words then (kernel s.family s.regs.ctr s.regs.key)[i] else 0)
  ∧ ∀ s : State, s.regs.valid = false →
      exec .gen s = .next { s with responses := s.responses ++ [Response.blank s.family .notSeeded] }

/-- R133, R130: MIX, in every family and state, puts in D[0..N-1] the family's kernel of the counter A[0..N-1] and
the key K[0..NK-1], 0 above; it writes no state. The kernel is TF_MIX for TF2x64 and PH_MIX for every other
family. -/
def Obligations.MixEvaluatesTheKernel : Prop :=
  (∀ (s : State) (counter : Block s.family) (key : Key s.family),
    (∀ i (h : i < s.family.words),
      counter[i] = s.operands.a[i]'(Nat.lt_of_lt_of_le h s.family.words_le_four)) →
    (∀ j (h : j < s.family.keyWords),
      key[j] = s.operands.k[j]'(Nat.lt_of_lt_of_le h s.family.keyWords_le_two)) →
    ∃ d : Vector (Word s.family) 4,
      exec .mix s = .next { s with responses := s.responses ++ [{ Response.blank s.family .ok with d := d }] }
      ∧ ∀ i (_ : i < 4), d[i] = if h : i < s.family.words then (kernel s.family counter key)[i] else 0)
  ∧ (∀ counter key : Pair64, kernel .tf2x64 counter key = threefryMix counter key)
  ∧ ∀ (v : Philox) (counter : Block (.philox v)) (key : Key (.philox v)),
      kernel (.philox v) counter key = philoxMix v counter key

/-! ## The Philox commands -/

/-- R108, R103, R104: ROUND answers one round of A under K, in the 2-word and in the 4-word families, and writes no
state; on a Threefry block it answers UNSUPPORTED. The multipliers are named, not valued. -/
def Obligations.RoundEvaluatesOneRound : Prop :=
  (∀ (v : Philox) (r : Regs (.philox v)) (o : Operands (.philox v)) (p : List (HostAction (.philox v)))
      (x : List (Response (.philox v))),
    ∃ d : Vector (Word (.philox v)) 4,
      exec .round ⟨.philox v, r, o, p, x⟩ =
        .next ⟨.philox v, r, o, p, x ++ [{ Response.blank (.philox v) .ok with d := d }]⟩
      ∧ (v.words = 2 → ∀ pm, (multipliers v)[0]? = some pm →
          d[0] = mulHigh pm o.a[0] ^^^ o.a[1] ^^^ o.k[0] ∧ d[1] = mulLow pm o.a[0] ∧ d[2] = 0 ∧ d[3] = 0)
      ∧ (v.words = 4 → ∀ pm0 pm1, (multipliers v)[0]? = some pm0 → (multipliers v)[1]? = some pm1 →
          d[0] = mulHigh pm1 o.a[2] ^^^ o.a[1] ^^^ o.k[0] ∧ d[1] = mulLow pm1 o.a[2]
          ∧ d[2] = mulHigh pm0 o.a[0] ^^^ o.a[3] ^^^ o.k[1] ∧ d[3] = mulLow pm0 o.a[0]))
  ∧ ∀ s : State, s.family = .tf2x64 →
      exec .round s = .next { s with responses := s.responses ++ [Response.blank s.family .unsupported] }

/-- R108's corner: a zero counter gives (k[0], 0, k[1], 0) in a 4-word family and (k[0], 0) in a 2-word one, under
every key (which the spec marks as derived). -/
def Obligations.RoundOfTheZeroCounterIsTheKey : Prop :=
  (∀ key : Vector (BitVec 32) 1, philoxRound .p2x32 #v[0, 0] key = #v[key[0], 0])
  ∧ (∀ key : Vector (BitVec 64) 1, philoxRound .p2x64 #v[0, 0] key = #v[key[0], 0])
  ∧ (∀ key : Vector (BitVec 32) 2, philoxRound .p4x32 #v[0, 0, 0, 0] key = #v[key[0], 0, key[1], 0])
  ∧ ∀ key : Vector (BitVec 64) 2, philoxRound .p4x64 #v[0, 0, 0, 0] key = #v[key[0], 0, key[1], 0]

/-- R109, R105: BUMP answers each key operand word plus its Weyl increment, modulo 2^W, in E[0..NK-1], 0 above, and
writes no state; on a Threefry block it answers UNSUPPORTED. The increments are named, not valued. -/
def Obligations.BumpAddsTheWeylIncrements : Prop :=
  (∀ (v : Philox) (r : Regs (.philox v)) (o : Operands (.philox v)) (p : List (HostAction (.philox v)))
      (x : List (Response (.philox v))),
    ∃ e : Vector (Word (.philox v)) 2,
      exec .bump ⟨.philox v, r, o, p, x⟩ =
        .next ⟨.philox v, r, o, p, x ++ [{ Response.blank (.philox v) .ok with e := e }]⟩
      ∧ ∀ j (_ : j < 2),
          e[j].toNat = if h : j < v.keyWords
            then (o.k[j].toNat + (weylIncrements v)[j].toNat) % 2 ^ v.width else 0)
  ∧ ∀ s : State, s.family = .tf2x64 →
      exec .bump s = .next { s with responses := s.responses ++ [Response.blank s.family .unsupported] }

/-! ## The streaming adapter's commands -/

/-- R161, R160: NEXT on a seeded block answers BUF[CUR] and adds 1 to CUR while CUR < N; at CUR = N it first puts
the block of the current counter in BUF and advances CTR, and answers that block's word 0, leaving CUR = 1. On an
unseeded block it answers NOT_SEEDED. -/
def Obligations.NextServesTheNextWord : Prop :=
  (∀ (s : State) (h : s.regs.cur.val < s.family.words), s.regs.valid = true →
    exec .next s = .next { s with
      regs := { s.regs with cur := ⟨s.regs.cur.val + 1, Nat.succ_lt_succ h⟩ },
      responses := s.responses ++ [{ Response.blank s.family .ok with d := #v[s.regs.buf[s.regs.cur.val], 0, 0, 0] }] })
  ∧ (∀ s : State, s.regs.cur.val = s.family.words → s.regs.valid = true →
      exec .next s = .next { s with
        regs := { s.regs with
          buf := kernel s.family s.regs.ctr s.regs.key
          ctr := advance s.family s.regs.ctr
          cur := ⟨1, Nat.succ_lt_succ s.family.words_pos⟩ },
        responses := s.responses ++ [{ Response.blank s.family .ok with
          d := #v[(kernel s.family s.regs.ctr s.regs.key)[0]'s.family.words_pos, 0, 0, 0] }] })
  ∧ ∀ s : State, s.regs.valid = false →
      exec .next s = .next { s with responses := s.responses ++ [Response.blank s.family .notSeeded] }

/-- R162, R42: FILL of n bytes on a seeded block takes ⌈n / WB⌉ words, each as NEXT takes it (PULL), and answers
exactly n bytes, output byte m being byte m mod WB of word m / WB; n = 0 takes no word. On an unseeded block it
answers NOT_SEEDED. -/
def Obligations.FillServesTheBytesOfTheNextWords : Prop :=
  (∀ (s : State) (n : Nat), s.regs.valid = true →
    ∃ bytes : List Byte,
      exec (.fill n) s = .next { s with
        regs := (fun r => (pull r).2)^[(n + s.family.wordBytes - 1) / s.family.wordBytes] s.regs,
        responses := s.responses ++ [{ Response.blank s.family .ok with bytes := bytes }] }
      ∧ bytes.length = n
      ∧ ∀ m : Nat, m < n →
          bytes[m]? = some (((pull ((fun r => (pull r).2)^[m / s.family.wordBytes] s.regs)).1).extractLsb'
            (8 * (m % s.family.wordBytes)) 8))
  ∧ ∀ (s : State) (n : Nat), s.regs.valid = false →
      exec (.fill n) s = .next { s with responses := s.responses ++ [Response.blank s.family .notSeeded] }

/-! ## The control commands -/

/-- R180: NOP, in every family and state, answers OK with nothing in its fields and writes no state. -/
def Obligations.NopAnswersOkAndChangesNothing : Prop :=
  ∀ s : State, ∃ resp : Response s.family,
    exec .nop s = .next { s with responses := s.responses ++ [resp] }
    ∧ resp.status = .ok ∧ (∀ i (_ : i < 4), resp.d[i] = 0) ∧ (∀ j (_ : j < 2), resp.e[j] = 0)
    ∧ resp.summary = 0 ∧ resp.bytes = []

/-- R181: RDSTATE, in every family and state, seeded or not, answers CTR in D[0..N-1], KEY in E[0..NK-1], 0 above
them, and F = (FAMILY_id << 4) | (VALID << 3) | CUR; it writes no state. -/
def Obligations.RdstateReportsCounterKeyAndSummary : Prop :=
  ∀ s : State, ∃ resp : Response s.family,
    exec .rdstate s = .next { s with responses := s.responses ++ [resp] }
    ∧ resp.status = .ok ∧ resp.bytes = []
    ∧ (∀ i (_ : i < 4), resp.d[i] = if h : i < s.family.words then s.regs.ctr[i] else 0)
    ∧ (∀ j (_ : j < 2), resp.e[j] = if h : j < s.family.keyWords then s.regs.key[j] else 0)
    ∧ resp.summary.toNat = s.family.id.toNat * 16 + s.regs.valid.toNat * 8 + s.regs.cur.val

/-- R182: RDBUF, in every family and state, seeded or not and at every CUR, answers BUF in D[0..N-1], 0 above, and
F as RDSTATE does; E is 0; it does not refill and writes no state. -/
def Obligations.RdbufReportsTheBufferedBlock : Prop :=
  ∀ s : State, ∃ resp : Response s.family,
    exec .rdbuf s = .next { s with responses := s.responses ++ [resp] }
    ∧ resp.status = .ok ∧ resp.bytes = [] ∧ (∀ j (_ : j < 2), resp.e[j] = 0)
    ∧ (∀ i (_ : i < 4), resp.d[i] = if h : i < s.family.words then s.regs.buf[i] else 0)
    ∧ resp.summary.toNat = s.family.id.toNat * 16 + s.regs.valid.toNat * 8 + s.regs.cur.val

/-- R66: the layout of F, bit by bit: CUR in bits 2:0, VALID in bit 3, the FAMILY id, 0 to 4, in bits 6:4 and 0 in
bit 7. -/
def Obligations.SummaryFieldLayout : Prop :=
  ∀ (f : Family) (r : Regs f),
    ((stateSummary r).extractLsb' 0 3).toNat = r.cur.val
    ∧ (stateSummary r).getLsbD 3 = r.valid
    ∧ (stateSummary r).extractLsb' 4 3 = f.id ∧ f.id.toNat ≤ 4
    ∧ (stateSummary r).getLsbD 7 = false
    ∧ (stateSummary r).toNat = f.id.toNat * 16 + r.valid.toNat * 8 + r.cur.val

/-! ## The stream -/

/-- R163 (which the spec marks as derived): seed a Threefry block, whatever its state, and issue only NEXT and
FILL. The words they take, counted in full, are those of TF_MIX at the counters 0, 1, 2, ... in order, word 0
before word 1; after j words the counter is ⌈j / 2⌉, as a 128-bit value. -/
def Obligations.ThreefryStreamIsTheBlocksInCounterOrder : Prop :=
  ∀ (r : Regs .tf2x64) (o o' seedOps : Operands .tf2x64) (x : List (Response .tf2x64)) (cs : List StreamCommand),
    (∀ n, StreamCommand.fill n ∈ cs → n < 65536) →
    ∃ t : Regs .tf2x64, ∃ o'' : Operands .tf2x64,
      run (cs.length + 1) ⟨.tf2x64, r, o, .command ⟨encode .seed, seedOps⟩ :: cs.map fun c => c.action o', x⟩ =
        .next ⟨.tf2x64, t, o'', [],
          x ++ Response.blank .tf2x64 .ok :: streamResponses (threefryStreamWord (seedKey seedOps)) 0 cs⟩
      ∧ counterValue t.ctr = ((streamWords .tf2x64 cs + 1) / 2) % 2 ^ 128

/-- R164 (which the spec marks as derived): seed a Philox block, whatever its state, and issue only NEXT and FILL,
with no SETCTR. The words they take repeat the block of the counter 0 with period N. -/
def Obligations.PhiloxStreamRepeatsTheZeroBlock : Prop :=
  ∀ (v : Philox) (r : Regs (.philox v)) (o o' seedOps : Operands (.philox v)) (x : List (Response (.philox v)))
    (cs : List StreamCommand),
    (∀ n, StreamCommand.fill n ∈ cs → n < 65536) →
    ∃ t : Regs (.philox v), ∃ o'' : Operands (.philox v),
      run (cs.length + 1) ⟨.philox v, r, o, .command ⟨encode .seed, seedOps⟩ :: cs.map fun c => c.action o', x⟩ =
        .next ⟨.philox v, t, o'', [],
          x ++ Response.blank (.philox v) .ok :: streamResponses (philoxStreamWord v (seedKey seedOps)) 0 cs⟩
      ∧ t.ctr = Vector.replicate v.words 0

/-- R215, R30 (which the spec marks as derived): the words at CUR to N - 1 of BUF are served before any refill,
whatever CTR and KEY hold by then, and serving them all leaves CUR = N and nothing else changed. -/
def Obligations.BufferedWordsAreServedFirst : Prop :=
  ∀ (f : Family) (r : Regs f) (ctr : Block f) (key : Key f),
    takeWords (f.words - r.cur.val) { r with ctr := ctr, key := key } =
      (r.buf.toList.drop r.cur.val, { r with ctr := ctr, key := key, cur := Fin.last f.words })

/-- R218, R162: a FILL of n1 bytes followed by one of n2 gives the bytes, and leaves the registers, of one FILL of
n1 + n2, when n1 is a multiple of WB. -/
def Obligations.FillsJoinAtWordBoundaries : Prop :=
  ∀ (f : Family) (r : Regs f) (n1 n2 : Nat), r.valid = true → f.wordBytes ∣ n1 →
    (fillAnswer f (n1 + n2) r).1 = (fillAnswer f n2 (fillAnswer f n1 r).1).1
    ∧ (fillAnswer f (n1 + n2) r).2.bytes =
        (fillAnswer f n1 r).2.bytes ++ (fillAnswer f n2 (fillAnswer f n1 r).1).2.bytes

/-- R134's corner case, R212, R217 (sentences that the spec marks as derived): two blocks of one family, in any two
states, given the same SEED and then the same sequence of host actions, run alike: they have the same registers and have
given the same responses since, at every step. -/
def Obligations.SeedErasesHistory : Prop :=
  ∀ (f : Family) (r1 r2 : Regs f) (o1 o2 seedOps : Operands f) (acts : List (HostAction f))
    (x1 x2 : List (Response f)) (k : Nat) (t : State),
    run (k + 1) ⟨f, r1, o1, .command ⟨encode .seed, seedOps⟩ :: acts, x1⟩ = .next t →
    ∃ (r : Regs f) (o : Operands f) (p : List (HostAction f)) (since : List (Response f)),
      t = ⟨f, r, o, p, x1 ++ since⟩
      ∧ run (k + 1) ⟨f, r2, o2, .command ⟨encode .seed, seedOps⟩ :: acts, x2⟩ =
          .next ⟨f, r, o, p, x2 ++ since⟩

/-! ## Runs, invariants, several blocks -/

/-- R48, R47: a sequence of requests, each waiting for its response, is served in order, one response to each, the
status of each being that of R191's check on the state the ones before it left. -/
def Obligations.CommandsAreAnsweredInOrder : Prop :=
  ∀ (f : Family) (r : Regs f) (o : Operands f) (x : List (Response f)) (before : List (Request f)) (q : Request f),
    ∃ (t u : Regs f) (o' : Operands f) (answers : List (Response f)) (answer : Response f),
      run before.length ⟨f, r, o, before.map .command ++ [.command q], x⟩ =
        .next ⟨f, t, o', [.command q], x ++ answers⟩
      ∧ answers.length = before.length
      ∧ run (before.length + 1) ⟨f, r, o, before.map .command ++ [.command q], x⟩ =
          .next ⟨f, u, q.operands, [], x ++ answers ++ [answer]⟩
      ∧ answer.status = checkedStatus f t.valid q.cmd

/-- Every step keeps the invariant: an unseeded block's registers are those of reset (R24, R192, R211), and every
response given is one the block can give: elements beyond N and NK are 0, an error answers its status alone, F
reports this family's id and a cursor in range (R65, R66, R192; R25, R26; I12). -/
def Obligations.EveryStepKeepsTheInvariant : Prop :=
  ∀ s t : State, Inv s → step s = .next t → Inv t

/-- The invariant holds right after reset, in every family. -/
def Obligations.TheInvariantHoldsAtReset : Prop :=
  ∀ f : Family, Inv (State.resetOf f)

/-- R52, R199: a step of one block of a system is that block's own step, whatever the others hold, and leaves every
other block as it was. That a system is a list of blocks is the model's choice (log entry 14). -/
def Obligations.BlocksShareNothing : Prop :=
  ∀ (units after : Units) (n : Nat), stepUnit units n = .next after →
    after.length = units.length
    ∧ (∀ m, m ≠ n → after[m]? = units[m]?)
    ∧ ∀ s, units[n]? = some s → ∃ t, step s = .next t ∧ after[n]? = some t

/-! ## The assembler -/

/-- R72, R69, R68: what the assembler accepts for a family, the block never answers with ILLEGAL or UNSUPPORTED:
its word is that of the line's command, and a seeded block answers OK. -/
def Obligations.AssembledCommandsAreAccepted : Prop :=
  ∀ (f : Family) (line : AsmLine) (q : Request f), assembleLine f line = some q →
    decode q.cmd = .ok line.command ∧ available line.command f = true ∧ checkedStatus f true q.cmd = .ok

/-- R72: the assembler refuses every line whose lists are not of the family's lengths, whose seed string is not
2*SB digits long, whose count FILL cannot carry, or whose command the family lacks. -/
def Obligations.AssemblerRefusesWhatTheFamilyCannotTake : Prop :=
  ∀ (f : Family) (line : AsmLine), (assembleLine f line).isSome = true →
    (∀ xs, line.counterList = some xs → xs.length = f.words)
    ∧ (∀ xs, line.keyList = some xs → xs.length = f.keyWords)
    ∧ (∀ digits, line.seedDigits = some digits → digits.length = 2 * f.seedBytes)
    ∧ (∀ n, line.command = .fill n → n ≤ 65535)
    ∧ available line.command f = true

/-- R72: a line that is not refused for one of those reasons, with words and digits that are the family's, assembles;
ci goes to A[i], ki to K[i], the seed bytes to S[0..SB-1] with byte S[0] first, and 0 to every other operand
element. R72 leaves the case of the seed string's digits open: that digits of either case assemble (`hexDigit`), and that
a word of a list is in range when it is below 2^W, are the model's choice (DESIGN CHOICE, log entry 13). -/
def Obligations.AssemblerPlacesTheOperands : Prop :=
  (∀ (f : Family) (line : AsmLine), line.seedDigits = none → available line.command f = true →
    (∀ n, line.command = .fill n → n ≤ 65535) →
    (∀ xs, line.counterList = some xs → xs.length = f.words ∧ ∀ x ∈ xs, x < 2 ^ f.width) →
    (∀ xs, line.keyList = some xs → xs.length = f.keyWords ∧ ∀ x ∈ xs, x < 2 ^ f.width) →
    ∃ q : Request f, assembleLine f line = some q
      ∧ (∀ i (_ : i < 4), q.operands.a[i].toNat = (line.counterList.getD []).getD i 0)
      ∧ (∀ j (_ : j < 2), q.operands.k[j].toNat = (line.keyList.getD []).getD j 0)
      ∧ ∀ i (_ : i < 16), q.operands.s[i] = 0)
  ∧ ∀ (f : Family) (digits : List Char), digits.length = 2 * f.seedBytes →
      (∀ ch ∈ digits, (hexDigit ch).isSome = true) →
      ∃ q : Request f, assembleLine f (.seed digits) = some q
        ∧ (∀ i (_ : i < 16), ∀ hi lo, digits[2 * i]?.bind hexDigit = some hi → digits[2 * i + 1]?.bind hexDigit = some lo →
            q.operands.s[i].toNat = 16 * hi + lo)
        ∧ (∀ i (_ : i < 16), f.seedBytes ≤ i → q.operands.s[i] = 0)
        ∧ (∀ i (_ : i < 4), q.operands.a[i] = 0) ∧ ∀ j (_ : j < 2), q.operands.k[j] = 0
end

