-- ==== Sys2Proof/Laws/Decode.lean ====
section
/-! SUPPORT. The fields of a command word, and the word of an encoding, as numbers. -/

namespace Sys2Proof

theorem opField_eq (cmd : BitVec 32) : opField cmd = cmd.toNat % 16 := by
  simp [opField, BitVec.extractLsb'_toNat]

theorem selField_eq (cmd : BitVec 32) : selField cmd = cmd.toNat / 16 % 4 := by
  simp [selField, BitVec.extractLsb'_toNat, Nat.shiftRight_eq_div_pow]

theorem rsvField_eq (cmd : BitVec 32) : rsvField cmd = cmd.toNat / 64 % 1024 := by
  simp [rsvField, BitVec.extractLsb'_toNat, Nat.shiftRight_eq_div_pow]

theorem lenField_eq (cmd : BitVec 32) : lenField cmd = cmd.toNat / 65536 := by
  have h := cmd.isLt
  simp only [lenField, BitVec.extractLsb'_toNat, Nat.shiftRight_eq_div_pow, Nat.reducePow]
  omega

theorem encode_toNat (i : Instr) :
    (encode i).toNat = (lengthOf i).toNat * 65536 + (selectorOf i).toNat * 16 + (opcodeOf i).toNat := by
  have hl := (lengthOf i).isLt
  have hs := (selectorOf i).isLt
  have ho := (opcodeOf i).isLt
  simp only [encode, BitVec.toNat_append]
  rw [← Nat.shiftLeft_add_eq_or_of_lt (by omega), ← Nat.shiftLeft_add_eq_or_of_lt (by omega),
    ← Nat.shiftLeft_add_eq_or_of_lt (by omega)]
  simp [Nat.shiftLeft_eq]
  omega

end Sys2Proof
end

