-- ==== Sys2Proof/Laws/State.lean ====
section
/-! SUPPORT. One lemma per field per update, true by `rfl`: the records that the shared operations build. -/

namespace Sys2Proof.Machine

@[simp] theorem reset_ctr (f : Family) : (Regs.reset f).ctr = Vector.replicate f.words 0 := rfl
@[simp] theorem reset_key (f : Family) : (Regs.reset f).key = Vector.replicate f.keyWords 0 := rfl
@[simp] theorem reset_buf (f : Family) : (Regs.reset f).buf = Vector.replicate f.words 0 := rfl
@[simp] theorem reset_cur (f : Family) : (Regs.reset f).cur = Fin.last f.words := rfl
@[simp] theorem reset_valid (f : Family) : (Regs.reset f).valid = false := rfl

@[simp] theorem blank_status (f : Family) (st : Status) : (Response.blank f st).status = st := rfl
@[simp] theorem blank_d (f : Family) (st : Status) : (Response.blank f st).d = Vector.replicate 4 0 := rfl
@[simp] theorem blank_e (f : Family) (st : Status) : (Response.blank f st).e = Vector.replicate 2 0 := rfl
@[simp] theorem blank_summary (f : Family) (st : Status) : (Response.blank f st).summary = 0 := rfl
@[simp] theorem blank_bytes (f : Family) (st : Status) : (Response.blank f st).bytes = [] := rfl

@[simp] theorem refill_ctr {f : Family} (r : Regs f) : (refill r).ctr = advance f r.ctr := rfl
@[simp] theorem refill_key {f : Family} (r : Regs f) : (refill r).key = r.key := rfl
@[simp] theorem refill_buf {f : Family} (r : Regs f) : (refill r).buf = kernel f r.ctr r.key := rfl
@[simp] theorem refill_cur {f : Family} (r : Regs f) : (refill r).cur = 0 := rfl
@[simp] theorem refill_valid {f : Family} (r : Regs f) : (refill r).valid = r.valid := rfl

section
variable {f : Family} (r : Regs f) (h : r.cur.val < f.words)
@[simp] theorem takeBuffered_word : (takeBuffered r h).1 = r.buf[r.cur.val] := rfl
@[simp] theorem takeBuffered_ctr : (takeBuffered r h).2.ctr = r.ctr := rfl
@[simp] theorem takeBuffered_key : (takeBuffered r h).2.key = r.key := rfl
@[simp] theorem takeBuffered_buf : (takeBuffered r h).2.buf = r.buf := rfl
@[simp] theorem takeBuffered_cur : (takeBuffered r h).2.cur.val = r.cur.val + 1 := rfl
@[simp] theorem takeBuffered_valid : (takeBuffered r h).2.valid = r.valid := rfl
end

section
variable (s : State) (q : Request s.family) (rest : List (HostAction s.family))
@[simp] theorem accept_family : (accept s q rest).family = s.family := rfl
@[simp] theorem accept_regs : (accept s q rest).regs = s.regs := rfl
@[simp] theorem accept_operands : (accept s q rest).operands = q.operands := rfl
@[simp] theorem accept_pending : (accept s q rest).pending = rest := rfl
@[simp] theorem accept_responses : (accept s q rest).responses = s.responses := rfl

@[simp] theorem resetBlock_family : (resetBlock s rest).family = s.family := rfl
@[simp] theorem resetBlock_regs : (resetBlock s rest).regs = Regs.reset s.family := rfl
@[simp] theorem resetBlock_operands : (resetBlock s rest).operands = Operands.zero s.family := rfl
@[simp] theorem resetBlock_pending : (resetBlock s rest).pending = rest := rfl
@[simp] theorem resetBlock_responses : (resetBlock s rest).responses = s.responses := rfl
end

end Sys2Proof.Machine
end

