-- ==== Sys2Proof/Laws/Ops.lean ====
section
/-! SUPPORT. What each shared operation does, said once: the end of a command, an error status, the check for a
seeded block, the word operations and the little-endian packing. -/

namespace Sys2Proof.Machine

/-- A command always completes, with the registers and the one response of its answer. -/
theorem complete_eq (s : State) (ans : Answer s.family) :
    complete s ans = .next { s with regs := ans.1, responses := s.responses ++ [ans.2] } := rfl

@[simp] theorem raise_regs {f : Family} (st : Status) (r : Regs f) : (raise st r).1 = r := rfl

@[simp] theorem raise_response {f : Family} (st : Status) (r : Regs f) :
    (raise st r).2 = Response.blank f st := rfl

theorem requireSeeded_of_valid {f : Family} {r : Regs f} (h : r.valid = true) (effect : Answer f) :
    requireSeeded r effect = effect := by simp [requireSeeded, h]

theorem requireSeeded_of_unseeded {f : Family} {r : Regs f} (h : r.valid = false) (effect : Answer f) :
    requireSeeded r effect = raise .notSeeded r := by simp [requireSeeded, h]

theorem product_toNat {w : Nat} (a b : BitVec w) : (product a b).toNat = a.toNat * b.toNat := by
  have h : a.toNat * b.toNat < 2 ^ (w + w) := by
    rw [Nat.pow_add]
    exact Nat.mul_lt_mul'' a.isLt b.isLt
  simp [product, Nat.mod_eq_of_lt h]

theorem leNat_append (xs ys : List Byte) : leNat (xs ++ ys) = leNat xs + 256 ^ xs.length * leNat ys := by
  induction xs with
  | nil => simp [leNat]
  | cons x xs ih => simp [leNat, ih, Nat.pow_succ]; ring

theorem leNat_lt (bs : List Byte) : leNat bs < 256 ^ bs.length := by
  induction bs with
  | nil => simp [leNat]
  | cons b bs ih =>
    have hb := b.isLt
    simp only [leNat, List.length_cons, Nat.pow_succ]
    omega

@[simp] theorem leBytes_length {w : Nat} (x : BitVec w) : (leBytes x).length = w / 8 := by simp [leBytes]

theorem leBytes_getElem? {w : Nat} (x : BitVec w) (i : Nat) (h : i < w / 8) :
    (leBytes x)[i]? = some (x.extractLsb' (8 * i) 8) := by
  simp [leBytes, h]

/-- Element `m` of pieces of one length laid end to end. -/
theorem flatMap_getElem? {α β : Type} (g : α → List β) (len : Nat) (hpos : 0 < len) (hlen : ∀ a, (g a).length = len) :
    ∀ (xs : List α) (m : Nat), (xs.flatMap g)[m]? = (xs[m / len]?).bind fun a => (g a)[m % len]?
  | [], m => by simp
  | a :: xs, m => by
    rw [List.flatMap_cons]
    by_cases h : m < len
    · rw [List.getElem?_append_left (by rw [hlen]; exact h)]
      simp [Nat.div_eq_of_lt h, Nat.mod_eq_of_lt h]
    · rw [List.getElem?_append_right (by rw [hlen]; omega), hlen, flatMap_getElem? g len hpos hlen]
      have hdiv : m / len = (m - len) / len + 1 := Nat.div_eq_sub_div hpos (by omega)
      rw [hdiv, Nat.mod_eq_sub_mod (a := m) (by omega)]
      simp

/-- The length of pieces of one length laid end to end. -/
theorem flatMap_length {α β : Type} (g : α → List β) (len : Nat) (hlen : ∀ a, (g a).length = len) (xs : List α) :
    (xs.flatMap g).length = xs.length * len := by
  induction xs with
  | nil => simp
  | cons a xs ih => simp [ih, hlen, Nat.add_mul]; omega

end Sys2Proof.Machine
end

