-- ==== Sys2Proof/Laws/Operands.lean ====
section
/-! SUPPORT. Each operand and result form by its elements. -/

namespace Sys2Proof.Machine

variable {f : Family}

@[simp] theorem counterOperand_getElem (o : Operands f) (i : Nat) (h : i < f.words) :
    (counterOperand o)[i] = o.a[i]'(Nat.lt_of_lt_of_le h f.words_le_four) := by
  simp [counterOperand]

@[simp] theorem keyOperand_getElem (o : Operands f) (j : Nat) (h : j < f.keyWords) :
    (keyOperand o)[j] = o.k[j]'(Nat.lt_of_lt_of_le h f.keyWords_le_two) := by
  simp [keyOperand]

@[simp] theorem seedKey_getElem (o : Operands f) (j : Nat) (h : j < f.keyWords) :
    (seedKey o)[j] = leWord f.width ((o.s.toList.drop (j * f.wordBytes)).take f.wordBytes) := by
  simp [seedKey]

@[simp] theorem blockResult_getElem (b : Block f) (i : Nat) (h : i < 4) :
    (blockResult b)[i] = if h : i < f.words then b[i] else 0 := by
  simp [blockResult]

@[simp] theorem keyResult_getElem (k : Key f) (j : Nat) (h : j < 2) :
    (keyResult k)[j] = if h : j < f.keyWords then k[j] else 0 := by
  simp [keyResult]

/-- A word is a whole number of bytes in every family (R4). -/
theorem wordBytes_mul_eight (f : Family) : 8 * f.wordBytes = f.width := by
  rcases f with _ | (_ | _ | _ | _) <;> rfl

theorem wordBytes_pos (f : Family) : 0 < f.wordBytes := by
  rcases f with _ | (_ | _ | _ | _) <;> decide

/-- The seed fits the seed operand in every family (R60). -/
theorem seedBytes_le (f : Family) : f.seedBytes ≤ 16 := by
  rcases f with _ | (_ | _ | _ | _) <;> decide

/-! The same forms in each shape of family, as written-out tuples. -/

theorem counterOperand_threefry (o : Operands .tf2x64) : counterOperand o = #v[o.a[0], o.a[1]] := by
  simp only [counterOperand]; rfl

theorem keyOperand_threefry (o : Operands .tf2x64) : keyOperand o = #v[o.k[0], o.k[1]] := by
  simp only [keyOperand]; rfl

theorem counterOperand_philox2x32 (o : Operands (.philox .p2x32)) : counterOperand o = #v[o.a[0], o.a[1]] := by
  simp only [counterOperand]; rfl

theorem counterOperand_philox2x64 (o : Operands (.philox .p2x64)) : counterOperand o = #v[o.a[0], o.a[1]] := by
  simp only [counterOperand]; rfl

theorem counterOperand_philox4x32 (o : Operands (.philox .p4x32)) :
    counterOperand o = #v[o.a[0], o.a[1], o.a[2], o.a[3]] := by
  simp only [counterOperand]; rfl

theorem counterOperand_philox4x64 (o : Operands (.philox .p4x64)) :
    counterOperand o = #v[o.a[0], o.a[1], o.a[2], o.a[3]] := by
  simp only [counterOperand]; rfl

theorem keyOperand_philox2x32 (o : Operands (.philox .p2x32)) : keyOperand o = #v[o.k[0]] := by
  simp only [keyOperand]; rfl

theorem keyOperand_philox2x64 (o : Operands (.philox .p2x64)) : keyOperand o = #v[o.k[0]] := by
  simp only [keyOperand]; rfl

theorem keyOperand_philox4x32 (o : Operands (.philox .p4x32)) : keyOperand o = #v[o.k[0], o.k[1]] := by
  simp only [keyOperand]; rfl

theorem keyOperand_philox4x64 (o : Operands (.philox .p4x64)) : keyOperand o = #v[o.k[0], o.k[1]] := by
  simp only [keyOperand]; rfl

theorem blockResult_threefry (b : Block .tf2x64) : blockResult b = #v[b[0], b[1], 0, 0] := by
  simp only [blockResult]; rfl

theorem blockResult_philox2x32 (b : Block (.philox .p2x32)) : blockResult b = #v[b[0], b[1], 0, 0] := by
  simp only [blockResult]; rfl

theorem blockResult_philox2x64 (b : Block (.philox .p2x64)) : blockResult b = #v[b[0], b[1], 0, 0] := by
  simp only [blockResult]; rfl

theorem blockResult_philox4x32 (b : Block (.philox .p4x32)) : blockResult b = #v[b[0], b[1], b[2], b[3]] := by
  simp only [blockResult]; rfl

theorem blockResult_philox4x64 (b : Block (.philox .p4x64)) : blockResult b = #v[b[0], b[1], b[2], b[3]] := by
  simp only [blockResult]; rfl

end Sys2Proof.Machine
end

