-- ==== Sys2Proof/Laws/PerInstr.lean ====
section
/-! SUPPORT. The family of lemmas named in LAWS.json: for each command, the fields of its encoding are those of
R61 and R67, bit positions and all. -/

namespace Sys2Proof.Laws.EncodedFields

/-- The encoding of a command holds its opcode in bits 3:0, its selector in bits 5:4, 0 in bits 15:6 and its byte
count in bits 31:16 (R61). -/
def Statement (i : Instr) : Prop :=
  (encode i).extractLsb' 0 4 = opcodeOf i ∧ (encode i).extractLsb' 4 2 = selectorOf i
    ∧ (encode i).extractLsb' 6 10 = 0 ∧ (encode i).extractLsb' 16 16 = lengthOf i

theorem fields (l : BitVec 16) (s : BitVec 2) (op : BitVec 4) :
    (l ++ 0#10 ++ s ++ op).extractLsb' 0 4 = op ∧ (l ++ 0#10 ++ s ++ op).extractLsb' 4 2 = s
      ∧ (l ++ 0#10 ++ s ++ op).extractLsb' 6 10 = 0 ∧ (l ++ 0#10 ++ s ++ op).extractLsb' 16 16 = l := by
  refine ⟨?_, ?_, ?_, ?_⟩ <;>
    (apply BitVec.eq_of_getLsbD_eq; intro k hk; simp; try grind)

theorem nop : Statement .nop := fields _ _ _
theorem seed : Statement .seed := fields _ _ _
theorem setkey : Statement .setkey := fields _ _ _
theorem setctr : Statement .setctr := fields _ _ _
theorem gen : Statement .gen := fields _ _ _
theorem next : Statement .next := fields _ _ _
theorem fill (len : Nat) : Statement (.fill len) := fields _ _ _
theorem mix : Statement .mix := fields _ _ _
theorem round : Statement .round := fields _ _ _
theorem bump : Statement .bump := fields _ _ _
theorem rdstate : Statement .rdstate := fields _ _ _
theorem rdbuf : Statement .rdbuf := fields _ _ _

end Sys2Proof.Laws.EncodedFields
end

