-- ==== Sys2Proof/Laws/Streaming.lean ====
section
/-! SUPPORT. The word take and its repetition: what PULL does in each of its two cases, what it never writes, and
how runs of takes split. -/

namespace Sys2Proof.Machine

variable {f : Family}

theorem pull_buffered (r : Regs f) (h : r.cur.val < f.words) : pull r = takeBuffered r h := by
  simp [pull, h]

theorem pull_exhausted (r : Regs f) (h : r.cur.val = f.words) :
    pull r = takeBuffered (refill r) (refill_cur_lt r) := by
  simp [pull, h]

@[simp] theorem pull_key (r : Regs f) : (pull r).2.key = r.key := by
  unfold pull; split <;> simp

@[simp] theorem pull_valid (r : Regs f) : (pull r).2.valid = r.valid := by
  unfold pull; split <;> simp

@[simp] theorem takeWords_zero (r : Regs f) : takeWords 0 r = ([], r) := rfl

theorem takeWords_succ (n : Nat) (r : Regs f) :
    takeWords (n + 1) r = ((pull r).1 :: (takeWords n (pull r).2).1, (takeWords n (pull r).2).2) := rfl

theorem takeWords_add (m n : Nat) (r : Regs f) :
    takeWords (m + n) r =
      ((takeWords m r).1 ++ (takeWords n (takeWords m r).2).1, (takeWords n (takeWords m r).2).2) := by
  induction m generalizing r with
  | zero => simp
  | succ m ih => rw [Nat.succ_add, takeWords_succ, takeWords_succ, ih]; simp

@[simp] theorem takeWords_length (n : Nat) (r : Regs f) : (takeWords n r).1.length = n := by
  induction n generalizing r with
  | zero => rfl
  | succ n ih => simp [takeWords_succ, ih]

theorem takeWords_regs (n : Nat) (r : Regs f) : (takeWords n r).2 = (fun r => (pull r).2)^[n] r := by
  induction n generalizing r with
  | zero => rfl
  | succ n ih => simp [takeWords_succ, ih]

theorem takeWords_getElem? (n : Nat) (r : Regs f) (i : Nat) (h : i < n) :
    (takeWords n r).1[i]? = some (pull ((fun r => (pull r).2)^[i] r)).1 := by
  induction n generalizing r i with
  | zero => omega
  | succ n ih =>
    cases i with
    | zero => simp [takeWords_succ]
    | succ i => simpa [takeWords_succ] using ih (pull r).2 i (by omega)

@[simp] theorem takeWords_key (n : Nat) (r : Regs f) : (takeWords n r).2.key = r.key := by
  induction n generalizing r with
  | zero => rfl
  | succ n ih => simp [takeWords_succ, ih]

@[simp] theorem takeWords_valid (n : Nat) (r : Regs f) : (takeWords n r).2.valid = r.valid := by
  induction n generalizing r with
  | zero => rfl
  | succ n ih => simp [takeWords_succ, ih]

theorem leBytes_word_length (w : Word f) : (leBytes w).length = f.wordBytes := leBytes_length w

/-- FILL takes words enough for its bytes. -/
theorem le_fillWords_mul (f : Family) (n : Nat) : n ≤ fillWords f n * f.wordBytes := by
  have hdiv := Nat.div_add_mod (n + f.wordBytes - 1) f.wordBytes
  have hmod := Nat.mod_lt (n + f.wordBytes - 1) (wordBytes_pos f)
  have hpos := wordBytes_pos f
  rw [fillWords, Nat.mul_comm]
  omega

/-- A family without AUTOINC leaves its counter alone (R4, R131). -/
theorem advance_of_not_autoInc {f : Family} (h : f.autoInc = false) (ctr : Block f) : advance f ctr = ctr := by
  cases f with
  | tf2x64 => cases h
  | philox v => rfl

end Sys2Proof.Machine
end

