-- ==== Sys2Proof/Laws/Step.lean ====
section
/-! SUPPORT. What a step can do, said once: every command completes with its answer, and a step follows the
host's next action. -/

namespace Sys2Proof.Machine

/-- The answer of each command, on a block's family, registers and operand fields. -/
def answerOf (i : Instr) (f : Family) (r : Regs f) (o : Operands f) : Answer f :=
  match i with
  | .nop => nopAnswer f r
  | .seed => seedAnswer f o
  | .setkey => setkeyAnswer f r o
  | .setctr => setctrAnswer f r o
  | .gen => genAnswer f r
  | .next => nextAnswer f r
  | .fill n => fillAnswer f n r
  | .mix => mixAnswer f r o
  | .round => roundAnswer f r o
  | .bump => bumpAnswer f r o
  | .rdstate => rdstateAnswer f r
  | .rdbuf => rdbufAnswer f r

/-- Every command completes, with its answer. -/
theorem exec_eq_complete (i : Instr) (s : State) :
    exec i s = complete s (answerOf i s.family s.regs s.operands) := by
  cases i <;> rfl

/-- `exec` of a state written out. -/
theorem exec_mk (i : Instr) {f : Family} (r : Regs f) (o : Operands f) (p : List (HostAction f))
    (x : List (Response f)) :
    exec i ⟨f, r, o, p, x⟩ = .next ⟨f, (answerOf i f r o).1, o, p, x ++ [(answerOf i f r o).2]⟩ :=
  exec_eq_complete _ _

/-- The status of every answer, from the family's having the command and the block's being seeded. -/
theorem answerOf_status (i : Instr) (f : Family) (r : Regs f) (o : Operands f) :
    (answerOf i f r o).2.status =
      if available i f = false then .unsupported
      else if needsSeed i = true ∧ r.valid = false then .notSeeded
      else .ok := by
  cases hv : r.valid <;> cases i <;> cases f <;>
    simp [answerOf, available, needsSeed, nopAnswer, seedAnswer, setkeyAnswer, setctrAnswer, genAnswer, nextAnswer,
      fillAnswer, mixAnswer, roundAnswer, bumpAnswer, rdstateAnswer, rdbufAnswer, requireSeeded, hv]

theorem step_idle {s : State} (h : s.pending = []) : step s = .next s := by
  simp [step, h]

theorem step_reset {s : State} {rest : List (HostAction s.family)} (h : s.pending = .reset :: rest) :
    step s = .next (resetBlock s rest) := by
  simp [step, h]

theorem step_overlapping {s : State} {q1 q2 : Request s.family} {rest : List (HostAction s.family)}
    (h : s.pending = .overlapping q1 q2 :: rest) : step s = .fault .overlappingCommands := by
  simp [step, h]

theorem step_illegal {s : State} {q : Request s.family} {rest : List (HostAction s.family)} {why : Reject}
    (h : s.pending = .command q :: rest) (hd : decode q.cmd = .error why) :
    step s = answerIllegal (accept s q rest) := by
  simp [step, h, hd]

/-- What a next state of a step can be: the host's actions are exhausted, or its next one is a reset, a word that
is not well-formed, or a command, executed. -/
theorem step_next_cases {s t : State} (h : step s = .next t) :
    (s.pending = [] ∧ t = s)
    ∨ (∃ rest, s.pending = .reset :: rest ∧ t = resetBlock s rest)
    ∨ (∃ q rest why, s.pending = .command q :: rest ∧ decode q.cmd = .error why
        ∧ answerIllegal (accept s q rest) = .next t)
    ∨ (∃ q rest i, s.pending = .command q :: rest ∧ decode q.cmd = .ok i ∧ exec i (accept s q rest) = .next t) := by
  unfold step at h
  split at h
  · rename_i hp
    exact .inl ⟨hp, by simpa using h.symm⟩
  · rename_i q rest hp
    split at h
    · rename_i i hd
      exact .inr (.inr (.inr ⟨q, rest, i, hp, hd, h⟩))
    · rename_i why hd
      exact .inr (.inr (.inl ⟨q, rest, why, hp, hd, h⟩))
  · cases h
  · rename_i rest hp
    exact .inr (.inl ⟨rest, hp, by simpa using h.symm⟩)

@[simp] theorem run_zero (s : State) : run 0 s = .next s := rfl

theorem run_succ_of_next {k : Nat} {s t : State} (h : step s = .next t) : run (k + 1) s = run k t := by
  simp [run, h]

theorem run_succ_of_fault {k : Nat} {s : State} {why : Fault} (h : step s = .fault why) :
    run (k + 1) s = .fault why := by
  simp [run, h]

theorem run_succ_of_refused {k : Nat} {s : State} {why : Refusal} (h : step s = .refused why) :
    run (k + 1) s = .refused why := by
  simp [run, h]

/-- `run` is the host's own iteration of the step. -/
theorem core_run_eq_run (k : Nat) (s : State) : Host.Core.run Sys2Proof.core k s = run k s := by
  induction k generalizing s with
  | zero => rfl
  | succ k ih =>
    simp only [Host.Core.run, run]
    cases hs : step s with
    | next t =>
      have hc : Sys2Proof.core.step s = .next t := hs
      simp only [hc]
      exact ih t
    | fault why =>
      have hc : Sys2Proof.core.step s = .fault why := hs
      simp only [hc]
      rfl
    | refused why =>
      have hc : Sys2Proof.core.step s = .refused why := hs
      simp only [hc]
      rfl

theorem run_add (j k : Nat) {s t : State} (h : run j s = .next t) : run (j + k) s = run k t := by
  induction j generalizing s with
  | zero => cases h; simp
  | succ j ih =>
    rw [Nat.succ_add]
    cases hs : step s with
    | next u => rw [run_succ_of_next hs] at h ⊢; exact ih h
    | fault why => rw [run_succ_of_fault hs] at h; cases h
    | refused why => rw [run_succ_of_refused hs] at h; cases h

end Sys2Proof.Machine
end

