-- ==== Sys2Proof/Tests/Slice0.lean ====
section
/-! SUPPORT. Tests. Expected values are those of spec/95_test_vectors.md and of the examples in the rules; each
test names its source. Then, for each statement that has hypotheses, a witness that meets them, at the ends of their
ranges where they have ends. -/

namespace Sys2Proof.Tests

open Sys2Proof Sys2Proof.Machine

/-! ## Well-formed instructions: the one check refuses one ill-formed term -/

theorem test_wf_refuses_65536_bytes : Instr.wf (.fill 65536) = false := by decide
theorem test_wf_takes_65535_bytes : Instr.wf (.fill 65535) = true := by decide

/-! ## Decoding: words written out from R61 (LEN, RSV, SEL, OP from bit 31 down) and R67 -/

def accepts (cmd : BitVec 32) (i : Instr) : Bool :=
  match decode cmd with
  | .ok j => j == i
  | .error _ => false

def rejects (cmd : BitVec 32) (why : Reject) : Bool :=
  match decode cmd with
  | .ok _ => false
  | .error w => w == why

theorem test_decode_nop : accepts 0b0000000000000000_0000000000_00_0000#32 .nop = true := by decide
theorem test_decode_seed : accepts 0b0000000000000000_0000000000_00_0001#32 .seed = true := by decide
theorem test_decode_setkey : accepts 0b0000000000000000_0000000000_00_0010#32 .setkey = true := by decide
theorem test_decode_setctr : accepts 0b0000000000000000_0000000000_00_0011#32 .setctr = true := by decide
theorem test_decode_gen : accepts 0b0000000000000000_0000000000_00_0100#32 .gen = true := by decide
theorem test_decode_next : accepts 0b0000000000000000_0000000000_00_0101#32 .next = true := by decide
theorem test_decode_fill_11 : accepts 0b0000000000001011_0000000000_00_0110#32 (.fill 11) = true := by decide
theorem test_decode_fill_65535 : accepts 0b1111111111111111_0000000000_00_0110#32 (.fill 65535) = true := by decide
theorem test_decode_mix : accepts 0b0000000000000000_0000000000_00_0111#32 .mix = true := by decide
theorem test_decode_round : accepts 0b0000000000000000_0000000000_00_1000#32 .round = true := by decide
theorem test_decode_bump : accepts 0b0000000000000000_0000000000_00_1001#32 .bump = true := by decide
theorem test_decode_rdstate : accepts 0b0000000000000000_0000000000_00_1010#32 .rdstate = true := by decide
theorem test_decode_rdbuf : accepts 0b0000000000000000_0000000000_01_1010#32 .rdbuf = true := by decide

/-- spec/95 §2.6: reserved opcodes. -/
theorem test_reject_opcodes :
    ([0xB#32, 0xC#32, 0xD#32, 0xE#32, 0xF#32].all fun c => rejects c .reservedOpcode) = true := by decide
/-- spec/95 §2.6: SEL = 2 or 3 with OP = A; SEL = 1 with another OP. -/
theorem test_reject_selectors :
    ([0x2A#32, 0x3A#32, 0x15#32, 0x00010016#32].all fun c => rejects c .badSelector) = true := by decide
/-- spec/95 §2.6: RSV bits 6 and 15. -/
theorem test_reject_reserved_bits : ([0x45#32, 0x8000#32].all fun c => rejects c .reservedBits) = true := by decide
/-- spec/95 §2.6: LEN outside FILL. -/
theorem test_reject_lengths :
    ([0x00010000#32, 0x00010002#32, 0x00010005#32].all fun c => rejects c .lengthOutsideFill) = true := by decide

/-- spec/95 §2.6: the status of every command word, by family kind and VALID (columns: TF2x64 0, 1; Philox 0, 1). -/
theorem test_status_table :
    ([0x0, 0x1, 0x2, 0x3, 0x4, 0x5, 0x00010006, 0x7, 0x8, 0x9, 0xA, 0x1A].map fun c =>
      [checkedStatus .tf2x64 false c, checkedStatus .tf2x64 true c,
       checkedStatus (.philox .p4x32) false c, checkedStatus (.philox .p4x32) true c].map
        fun st => st.code.toNat) =
    [[0, 0, 0, 0], [0, 0, 0, 0], [3, 0, 2, 2], [2, 2, 3, 0], [3, 0, 3, 0], [3, 0, 3, 0], [3, 0, 3, 0], [0, 0, 0, 0],
     [2, 2, 0, 0], [2, 2, 0, 0], [0, 0, 0, 0], [0, 0, 0, 0]] := by decide

/-! ## Kernels: known answers -/

/-- spec/95 V1. -/
theorem test_threefry_known_answer :
    threefryMix #v[0, 0] #v[0xdeadbeef12345678, 0xdecafbadbeadfeed] = #v[0x3c956fe5e3e09745, 0x911f953cce0c0674] := by
  decide
/-- spec/95 §2.1, all words all ones. -/
theorem test_threefry_all_ones :
    threefryMix #v[0xffffffffffffffff, 0xffffffffffffffff] #v[0xffffffffffffffff, 0xffffffffffffffff] =
      #v[0xe02cb7c4d95d277a, 0xd06633d0893b8b68] := by decide
/-- R83, corner case. -/
theorem test_threefry_inject_wraps :
    threefryInject #v[0xffffffffffffffff, 0xffffffffffffffff] #v[1, 2, 3] 5 = #v[2, 5] := by decide
/-- R84, corner case. -/
theorem test_threefry_round_wraps :
    threefryRound #v[0xffffffffffffffff, 1] 42 = #v[0, 0x0000040000000000] := by decide
/-- spec/95 V2. -/
theorem test_philox4x32_known_answer :
    philoxMix .p4x32 #v[0, 0, 0, 0] #v[0x11111111, 0x22222222] =
      #v[0xcc7d356a, 0x5e7dedd7, 0x76798bc3, 0x6c05818c] := by decide
/-- spec/95 §2.2, the pi inputs. -/
theorem test_philox2x32_pi :
    philoxMix .p2x32 #v[0x243f6a88, 0x85a308d3] #v[0x13198a2e] = #v[0xdd7ce038, 0xf62a4c12] := by decide
theorem test_philox2x64_pi :
    philoxMix .p2x64 #v[0x243f6a8885a308d3, 0x13198a2e03707344] #v[0xa4093822299f31d0] =
      #v[0x0a5e742c2997341c, 0xb0f883d38000de5d] := by decide
theorem test_philox4x64_pi :
    philoxMix .p4x64 #v[0x243f6a8885a308d3, 0x13198a2e03707344, 0xa4093822299f31d0, 0x082efa98ec4e6c89]
        #v[0x452821e638d01377, 0xbe5466cf34e90c6c] =
      #v[0xa528f45403e61d95, 0x38c72dbd566e9788, 0xa5a1610e72fd18b5, 0x57bd43b5e52b7fe6] := by decide
/-- R102, corner case. -/
theorem test_wide_multiply_all_ones :
    (mulHigh 0xffffffff#32 0xffffffff#32, mulLow 0xffffffff#32 0xffffffff#32) = (0xfffffffe, 1) := by decide
/-- spec/95 §2.3. -/
theorem test_advance_carries :
    threefryAdvance #v[0xffffffffffffffff, 5] = #v[0, 6]
      ∧ threefryAdvance #v[5, 0xffffffffffffffff] = #v[6, 0xffffffffffffffff]
      ∧ threefryAdvance #v[0xffffffffffffffff, 0xffffffffffffffff] = #v[0, 0] := by decide

/-! ## Commands: one step each, on a small state -/

/-- A block with the given registers and operand fields, nothing pending. -/
def block (f : Family) (r : Regs f) (o : Operands f := Operands.zero f) : State := ⟨f, r, o, [], []⟩

/-- What a command leaves, read as numbers. -/
structure Seen where
  ctr : List Nat
  key : List Nat
  buf : List Nat
  cur : Nat
  valid : Bool
  status : List Nat
  d : List Nat
  e : List Nat
  f : List Nat
  bytes : List Nat
deriving DecidableEq, Repr

def nats {w n : Nat} (v : Vector (BitVec w) n) : List Nat := v.toList.map BitVec.toNat

def see : Host.Outcome State Fault Refusal → Option Seen
  | .next t => some
      { ctr := nats t.regs.ctr, key := nats t.regs.key, buf := nats t.regs.buf, cur := t.regs.cur.val,
        valid := t.regs.valid, status := t.responses.map fun r => r.status.code.toNat,
        d := t.responses.flatMap fun r => nats r.d, e := t.responses.flatMap fun r => nats r.e,
        f := t.responses.map fun r => r.summary.toNat,
        bytes := t.responses.flatMap fun r => r.bytes.map BitVec.toNat }
  | _ => none

/-- The §8 key of spec/95. -/
def key8 : Pair64 := #v[0xdeadbeef12345678, 0xdecafbadbeadfeed]

/-- TF2x64 seeded with the §8 key (spec/95 §2.5). -/
def seededTf : Regs .tf2x64 := ⟨#v[0, 0], key8, #v[0, 0], 2, true⟩

/-- PH4x32 seeded with (11111111, 22222222), its block read to the end (spec/95 P3 after line 5). -/
def usedPh : Regs (.philox .p4x32) :=
  ⟨#v[0, 0, 0, 0], #v[0x11111111, 0x22222222], #v[0xcc7d356a, 0x5e7dedd7, 0x76798bc3, 0x6c05818c], 4, true⟩

def operandsTf : Operands .tf2x64 := ⟨#v[0, 0, 9, 9], #v[5, 6], Vector.replicate 16 0⟩

/-- R180, example. -/
theorem test_nop : (see (exec .nop (block .tf2x64 seededTf))).map (fun x => (x.status, x.d, x.f, x.cur)) =
    some ([0], [0, 0, 0, 0], [0], 2) := by decide

/-- spec/95 §2.4: the PH4x64 seed 00 01 ... 0f. -/
theorem test_seed_philox4x64 :
    (see (exec .seed (block (.philox .p4x64) (Regs.reset _)
      ⟨Vector.replicate 4 7, Vector.replicate 2 7, #v[0, 1, 2, 3, 4, 5, 6, 7, 8, 9, 10, 11, 12, 13, 14, 15]⟩))).map
        (fun x => (x.key, x.ctr, x.cur, x.valid, x.status)) =
      some ([0x0706050403020100, 0x0f0e0d0c0b0a0908], [0, 0, 0, 0], 4, true, [0]) := by decide
/-- spec/95 §2.4: PH2x32 reads four bytes and ignores the others (R60). -/
theorem test_seed_philox2x32 :
    (see (exec .seed (block (.philox .p2x32) (Regs.reset _)
      ⟨Vector.replicate 4 7, Vector.replicate 2 7, #v[0x2e, 0x8a, 0x19, 0x13, 9, 9, 9, 9, 9, 9, 9, 9, 9, 9, 9, 9]⟩))).map
        (fun x => (x.key, x.cur)) = some ([0x13198a2e], 2) := by decide

/-- R135: KEY alone is written; in an unseeded block nothing is. -/
theorem test_setkey :
    (see (exec .setkey (block .tf2x64 { seededTf with ctr := #v[2, 0], cur := 1 } operandsTf))).map
      (fun x => (x.key, x.ctr, x.cur, x.status)) = some ([5, 6], [2, 0], 1, [0]) := by decide
theorem test_setkey_unseeded :
    (see (exec .setkey (block .tf2x64 (Regs.reset _) operandsTf))).map (fun x => (x.key, x.status)) =
      some ([0, 0], [3]) := by decide

/-- spec/95 P3 line 7. -/
theorem test_setctr :
    (see (exec .setctr (block (.philox .p4x32) usedPh ⟨#v[1, 0, 0, 0], #v[3, 3], Vector.replicate 16 0⟩))).map
      (fun x => (x.ctr, x.key, x.cur, x.status)) = some ([1, 0, 0, 0], [0x11111111, 0x22222222], 4, [0]) := by decide
/-- R136: TF2x64 has no counter write. -/
theorem test_setctr_threefry :
    (see (exec .setctr (block .tf2x64 seededTf operandsTf))).map (fun x => (x.ctr, x.status)) = some ([0, 0], [2]) := by
  decide

/-- R137, example. -/
theorem test_gen :
    (see (exec .gen (block .tf2x64 seededTf))).map (fun x => (x.d, x.ctr, x.buf, x.cur)) =
      some ([0x3c956fe5e3e09745, 0x911f953cce0c0674, 0, 0], [1, 0], [0, 0], 2) := by decide

/-- R161, example: the first NEXT refills. -/
theorem test_next_refills :
    (see (exec .next (block .tf2x64 seededTf))).map (fun x => (x.d, x.ctr, x.buf, x.cur)) =
      some ([0x3c956fe5e3e09745, 0, 0, 0], [1, 0], [0x3c956fe5e3e09745, 0x911f953cce0c0674], 1) := by decide
/-- spec/95 P3 line 6: a Philox refill at the same counter. -/
theorem test_next_philox_repeats :
    (see (exec .next (block _ usedPh))).map (fun x => (x.d, x.ctr, x.cur)) =
      some ([0xcc7d356a, 0, 0, 0], [0, 0, 0, 0], 1) := by decide

/-- spec/95 §2.5: FILL 17 takes three words, refilling in the middle. -/
theorem test_fill_17 :
    (see (exec (.fill 17) (block .tf2x64 seededTf))).map (fun x => (x.bytes, x.ctr, x.cur)) =
      some ([0x45, 0x97, 0xe0, 0xe3, 0xe5, 0x6f, 0x95, 0x3c, 0x74, 0x06, 0x0c, 0xce, 0x3c, 0x95, 0x1f, 0x91, 0x17],
        [2, 0], 1) := by decide
/-- spec/95 §2.5: FILL 9 after FILL 6 on PH4x32. -/
theorem test_fill_9 :
    (see (exec (.fill 9) (block _ { usedPh with cur := 2 }))).map (fun x => (x.bytes, x.cur)) =
      some ([0xc3, 0x8b, 0x79, 0x76, 0x8c, 0x81, 0x05, 0x6c, 0x6a], 1) := by decide

/-- R133, example: unseeded, and elements A[2..3] ignored. -/
theorem test_mix :
    (see (exec .mix (block .tf2x64 (Regs.reset _) { operandsTf with k := key8 }))).map (fun x => (x.d, x.ctr)) =
      some ([0x3c956fe5e3e09745, 0x911f953cce0c0674, 0, 0], [0, 0]) := by decide

/-- spec/95 §2.2: the pairing of multipliers and words. -/
theorem test_round :
    (see (exec .round (block (.philox .p4x32) (Regs.reset _) ⟨#v[1, 0, 1, 0], #v[0, 0], Vector.replicate 16 0⟩))).map
      (fun x => (x.d, x.status)) = some ([0, 0xcd9e8d57, 0, 0xd2511f53], [0]) := by decide
/-- spec/95 P4 line 8. -/
theorem test_round_philox2x32 :
    (see (exec .round (block (.philox .p2x32) (Regs.reset _)
      ⟨#v[0x243f6a88, 0x85a308d3, 1, 1], #v[0x13198a2e, 1], Vector.replicate 16 0⟩))).map (fun x => x.d) =
        some [0x8b72d2a0, 0xf0133418, 0, 0] := by decide

/-- spec/95 §2.2: both words wrap. -/
theorem test_bump :
    (see (exec .bump (block (.philox .p4x32) (Regs.reset _)
      ⟨#v[1, 1, 1, 1], #v[0x70000000, 0x50000000], Vector.replicate 16 0⟩))).map (fun x => (x.e, x.d)) =
        some ([0x0e3779b9, 0x0b67ae85], [0, 0, 0, 0]) := by decide
/-- R109, example: K[1] is ignored in a 2-word family. -/
theorem test_bump_philox2x32 :
    (see (exec .bump (block (.philox .p2x32) (Regs.reset _)
      ⟨#v[1, 1, 1, 1], #v[0xffffffff, 1], Vector.replicate 16 0⟩))).map (fun x => x.e) = some [0x9e3779b8, 0] := by
  decide

/-- spec/95 P1 line 5. -/
theorem test_rdstate :
    (see (exec .rdstate (block .tf2x64 { seededTf with ctr := #v[2, 0], cur := 1 }))).map (fun x => (x.d, x.e, x.f)) =
      some ([2, 0, 0, 0], [0xdeadbeef12345678, 0xdecafbadbeadfeed], [0x09]) := by decide
/-- spec/95 §2.7: F after reset, in each family. -/
theorem test_rdstate_after_reset :
    ([Family.tf2x64, .philox .p2x32, .philox .p2x64, .philox .p4x32, .philox .p4x64].map fun f =>
      (see (exec .rdstate (State.resetOf f))).map fun x => x.f) =
        [some [0x02], some [0x12], some [0x22], some [0x34], some [0x44]] := by decide

/-- spec/95 P3 line 13. -/
theorem test_rdbuf :
    (see (exec .rdbuf (block (.philox .p4x32)
      ⟨#v[1, 0, 0, 0], #v[0x11111111, 0x22222222], #v[0x4d7d84fc, 0x44ea4626, 0x26680a11, 0xc5c86681], 1, true⟩))).map
        (fun x => (x.d, x.e, x.f)) =
      some ([0x4d7d84fc, 0x44ea4626, 0x26680a11, 0xc5c86681], [0, 0], [0x39]) := by decide

/-! ## Steps -/

/-- spec/95 P4 line 3: a reserved word is answered ILLEGAL. -/
theorem test_step_reserved_word :
    (see (step (State.reset.withFetchWord 32 0xB))).map (fun x => (x.status, x.valid)) = some ([1], false) := by decide
/-- spec/95 P4 line 7, as the first step after reset: the word the host gives is fetched and run. -/
theorem test_step_first_command :
    (see (step (State.reset.withFetchWord 32 0x7))).map (fun x => (x.d, x.status)) =
      some ([0xc2b6e3a8c2c69865, 0x6f81ed42f350084d, 0, 0], [0]) := by decide
theorem test_table_word_fill : decodeTableWord 32 0x000B0006 = some (.fill 11) := by decide
/-- A reset of a used block (R210). -/
theorem test_step_reset :
    (see (step { block _ usedPh with pending := [.reset] })).map (fun x => (x.ctr, x.key, x.buf, x.cur, x.valid)) =
      some ([0, 0, 0, 0], [0, 0], [0, 0, 0, 0], 4, false) := by decide

/-! ## The assembler -/

/-- R72's syntax: a comment, and the example FILL 11 of spec/30. -/
theorem test_assemble_fill :
    (assembleText .tf2x64 ['F', 'I', 'L', 'L', ' ', '1', '1', ' ', ';', 'x']).map (fun qs => qs.map fun q => q.cmd) =
      some [0x000B0006] := by decide
/-- spec/95 P2 line 4 and P4 line 9: numbers in both bases, lists with commas. -/
theorem test_assemble_setkey :
    (assembleText .tf2x64 ['S', 'E', 'T', 'K', 'E', 'Y', ' ', '0', ',', ' ', '0', 'x', 'f', 'F']).map
      (fun qs => qs.map fun q => (q.cmd, nats q.operands.k)) = some [(0x2, [0, 255])] := by decide
/-- spec/95 P4 line 8's form: two lists with a slash. -/
theorem test_assemble_round :
    (assembleText (.philox .p2x32) ['R', 'O', 'U', 'N', 'D', ' ', '7', ',', '8', ' ', '/', ' ', '9']).map
      (fun qs => qs.map fun q => (q.cmd, nats q.operands.a, nats q.operands.k)) =
        some [(0x8, [7, 8, 0, 0], [9, 0])] := by decide
/-- spec/95 P4 line 12: the seed string, byte S[0] first. -/
theorem test_assemble_seed :
    (assembleText (.philox .p2x32) ['S', 'E', 'E', 'D', ' ', '"', '2', 'e', '8', 'a', '1', '9', '1', '3', '"']).map
      (fun qs => qs.map fun q => (q.cmd, (nats q.operands.s).take 5)) = some [(0x1, [0x2e, 0x8a, 0x19, 0x13, 0])] := by
  decide
/-- spec/95 P4 line 2: the assembler refuses a mnemonic the family lacks; R72: and a list of another length. -/
theorem test_assemble_refuses :
    assembleLine (.philox .p2x32) (.setkey [1]) = none ∧ assembleLine .tf2x64 (.setkey [1]) = none
      ∧ assembleLine .tf2x64 (.fill 65536) = none ∧ assembleLine (.philox .p2x32) (.bump [0x100000000]) = none := by
  decide

/-! ## Witnesses: concrete states and operands that meet each statement's hypotheses -/

/-- A request for a TF2x64 block, all operand fields 0. -/
def request (cmd : BitVec 32) : Request .tf2x64 := ⟨cmd, Operands.zero _⟩

def seededWith (cmd : BitVec 32) : State := { block .tf2x64 seededTf with pending := [.command (request cmd)] }

def unseededWith (cmd : BitVec 32) : State :=
  { State.resetOf .tf2x64 with pending := [.command (request cmd)] }

theorem witness_DecodeOfEncodeIsTheCommand : (Instr.fill 65535).wf = true ∧ Instr.rdbuf.wf = true := by decide

theorem witness_EncodeOfDecodeIsTheWord :
    (∃ cmd, decode cmd = .ok (.fill 65535)) ∧ ∃ cmd, decode cmd = .ok .rdbuf :=
  ⟨⟨0xFFFF0006, rfl⟩, ⟨0x1A, rfl⟩⟩

theorem witness_IllformedWordsAreIllegalWithNoEffect :
    (seededWith 0x00010016).pending = .command (request 0x00010016) :: [] ∧ ¬ wellFormedWord 0x00010016
      ∧ wellFormedWord 0xFFFF0006 := ⟨rfl, by decide, by decide⟩

theorem witness_StepRunsTheDecodedCommand :
    (seededWith 0xFFFF0006).pending = .command (request 0xFFFF0006) :: []
      ∧ decode (request 0xFFFF0006).cmd = .ok (.fill 65535) := ⟨rfl, rfl⟩

/-- Clause by clause: overlapping commands, then idle, reset, ILLEGAL and a command. -/
theorem witness_OnlyOverlappingCommandsHaveNoStep :
    (∃ q1 q2 rest, ({ block .tf2x64 seededTf with
        pending := [.overlapping (request 5) (request 5)] } : State).pending = .overlapping q1 q2 :: rest)
      ∧ (¬ ∃ q1 q2 rest, (State.resetOf .tf2x64).pending = .overlapping q1 q2 :: rest)
      ∧ (¬ ∃ q1 q2 rest, (seededWith 0xB).pending = .overlapping q1 q2 :: rest)
      ∧ ¬ ∃ q1 q2 rest, (seededWith 0x5).pending = .overlapping q1 q2 :: rest :=
  ⟨⟨_, _, _, rfl⟩, (by rintro ⟨_, _, _, h⟩; cases h), (by rintro ⟨_, _, _, h⟩; cases h),
    (by rintro ⟨_, _, _, h⟩; cases h)⟩

theorem witness_IdleAndResetKeepTheHostsSide :
    (State.resetOf .tf2x64).pending = []
      ∧ ({ block .tf2x64 seededTf with pending := [.reset] } : State).pending = .reset :: [] := ⟨rfl, rfl⟩

theorem witness_ResetGivesTheResetValues :
    ({ block (.philox .p4x32) usedPh with pending := [.reset, .reset] } : State).pending = .reset :: [.reset] := rfl

theorem witness_StatusIsTheFirstFailingCheck :
    (unseededWith 0x00010002).pending = .command (request 0x00010002) :: []
      ∧ (seededWith 0x3).pending = .command (request 0x3) :: [] := ⟨rfl, rfl⟩

/-- Each of the three errors. -/
theorem witness_ErrorStatusChangesNoState :
    checkedStatus .tf2x64 true 0x15 = .illegal ∧ checkedStatus .tf2x64 true 0x8 = .unsupported
      ∧ checkedStatus .tf2x64 false 0x4 = .notSeeded ∧ (unseededWith 0x4).pending = .command (request 0x4) :: [] := by
  decide

theorem witness_SupportedCommandsSucceed :
    available .setkey (block .tf2x64 seededTf).family = true ∧ (block .tf2x64 seededTf).regs.valid = true
      ∧ available .round (State.resetOf (.philox .p2x32)).family = true ∧ needsSeed .round = false := by decide

theorem witness_CommandsWriteOnlyTheirElements :
    (∃ t, exec .gen (block .tf2x64 seededTf) = .next t) ∧ (∃ t, exec .rdbuf (block _ usedPh) = .next t)
      ∧ (∃ t, exec .setctr (block _ usedPh) = .next t) ∧ ∃ t, exec .setkey (block .tf2x64 seededTf) = .next t :=
  ⟨⟨_, rfl⟩, ⟨_, rfl⟩, ⟨_, rfl⟩, ⟨_, rfl⟩⟩

theorem witness_ValidIsSetBySeedAndClearedByReset :
    (∃ t, exec .seed (State.resetOf .tf2x64) = .next t)
      ∧ ((∃ t, step (seededWith 0x5) = .next t) ∧ (seededWith 0x5).regs.valid = true
        ∧ ¬ ∃ rest, (seededWith 0x5).pending = .reset :: rest)
      ∧ (State.resetOf .tf2x64).regs.valid = false ∧ needsSeed (.fill 0) = true ∧ available (.fill 0) .tf2x64 = true :=
  ⟨⟨_, rfl⟩, ⟨⟨_, rfl⟩, rfl, by rintro ⟨_, h⟩; cases h⟩, rfl, rfl, rfl⟩

theorem witness_NoStepChangesTheFamily :
    (∃ t, step (seededWith 0x1) = .next t) ∧ ∃ t, step (State.resetOf (.philox .p4x64)) = .next t :=
  ⟨⟨_, rfl⟩, ⟨_, rfl⟩⟩

/-- The ends of the range of rotations, and of the bits. -/
theorem witness_RotationMovesEachBit : 0 < 1 ∧ 1 < 64 ∧ 0 < 63 ∧ 63 < 64 ∧
    (rotateLeft64 0x8000000000000001 1, rotateLeft64 0x8000000000000001 63) = (3#64, 0xC000000000000000#64) := by
  decide

theorem witness_LittleEndianPackingRoundTrips :
    ([0x78, 0x56, 0x34, 0x12] : List Byte).length = 4 ∧ ([] : List Byte).length = 0 ∧ 3 < 4 := by decide

theorem witness_ThreefryPartsOnNumbersAndBits : 0 ≤ 5 ∧ 5 ≤ 5 ∧ 0 < 16 ∧ 16 < 64 ∧ 63 < 64 := by decide

theorem witness_SeedLoadsTheKeyAndRestarts :
    1 < Family.tf2x64.keyWords ∧ 7 < Family.tf2x64.wordBytes ∧ 0 < (Family.philox .p2x32).keyWords := by decide

theorem witness_SetkeyWritesTheKeyAlone :
    seededTf.valid = true ∧ (Regs.reset .tf2x64).valid = false ∧ (block _ usedPh).family ≠ .tf2x64 := by decide

theorem witness_SetctrWritesTheCounterAlone :
    ((block _ usedPh).family ≠ .tf2x64 ∧ (block _ usedPh).regs.valid = true ∧ 3 < (block _ usedPh).family.words)
      ∧ ((State.resetOf (.philox .p2x64)).family ≠ .tf2x64 ∧ (State.resetOf (.philox .p2x64)).regs.valid = false)
      ∧ (block .tf2x64 seededTf).family = .tf2x64 := by decide

theorem witness_GenAnswersTheBlockAndAdvances :
    (block .tf2x64 seededTf).regs.valid = true ∧ (State.resetOf (.philox .p4x32)).regs.valid = false := by decide

theorem witness_MixEvaluatesTheKernel :
    ∃ (counter : Block .tf2x64) (key : Key .tf2x64),
      (∀ i (h : i < 2), counter[i] = (block .tf2x64 seededTf operandsTf).operands.a[i]'(Nat.lt_of_lt_of_le h (by decide)))
      ∧ ∀ j (h : j < 2), key[j] = (block .tf2x64 seededTf operandsTf).operands.k[j] :=
  ⟨counterOperand operandsTf, keyOperand operandsTf, fun i h => counterOperand_getElem operandsTf i h,
    fun j h => keyOperand_getElem operandsTf j h⟩

theorem witness_RoundEvaluatesOneRound :
    Philox.p2x64.words = 2 ∧ (multipliers .p2x64)[0]? = some 0xD2B74407B1CE6E93
      ∧ Philox.p4x32.words = 4 ∧ (multipliers .p4x32)[0]? = some 0xD2511F53
      ∧ (multipliers .p4x32)[1]? = some 0xCD9E8D57 ∧ (block .tf2x64 seededTf).family = .tf2x64 := by decide

theorem witness_BumpAddsTheWeylIncrements :
    0 < 2 ∧ 1 < 2 ∧ (block .tf2x64 seededTf).family = .tf2x64 := by decide

/-- The last buffered word, an exhausted buffer, and an unseeded block. -/
theorem witness_NextServesTheNextWord :
    ((block _ { usedPh with cur := 3 }).regs.cur.val < (block _ { usedPh with cur := 3 }).family.words
        ∧ (block _ { usedPh with cur := 3 }).regs.valid = true)
      ∧ ((block _ usedPh).regs.cur.val = (block _ usedPh).family.words ∧ (block _ usedPh).regs.valid = true)
      ∧ (State.resetOf .tf2x64).regs.valid = false := by decide

theorem witness_FillServesTheBytesOfTheNextWords :
    (block .tf2x64 seededTf).regs.valid = true ∧ 0 < 1 ∧ 16 < 17 ∧ (State.resetOf .tf2x64).regs.valid = false := by
  decide

theorem witness_RdstateReportsCounterKeyAndSummary : 0 < 4 ∧ 3 < 4 ∧ 1 < 2 := by decide

theorem witness_streams :
    ∀ n, StreamCommand.fill n ∈ [StreamCommand.next, .fill 0, .fill 65535, .next] → n < 65536 := by
  intro n h
  simp at h
  omega

theorem witness_FillsJoinAtWordBoundaries :
    usedPh.valid = true ∧ (Family.philox .p4x32).wordBytes ∣ 0 ∧ (Family.philox .p4x32).wordBytes ∣ 8 := by decide

theorem witness_SeedErasesHistory :
    ∃ t, run 1 ⟨.tf2x64, seededTf, operandsTf, [.command ⟨encode .seed, operandsTf⟩, .reset], []⟩ = .next t := by
  have hd : decode (encode .seed) = .ok .seed := by decide
  exact ⟨_, run_succ_of_next (by simp only [step, hd]; exact exec_mk _ _ _ _ _)⟩

theorem witness_EveryStepKeepsTheInvariant :
    Inv (seededWith 0x5) ∧ ∃ t, step (seededWith 0x5) = .next t :=
  ⟨⟨(by decide), by intro r h; cases h⟩, ⟨_, rfl⟩⟩

theorem witness_EveryStepKeepsTheInvariant_unseeded :
    Inv (unseededWith 0xA) ∧ (unseededWith 0xA).regs.valid = false ∧ ∃ t, step (unseededWith 0xA) = .next t :=
  ⟨⟨fun _ => rfl, by intro r h; cases h⟩, rfl, ⟨_, rfl⟩⟩

theorem witness_BlocksShareNothing :
    ∃ after, stepUnit [seededWith 0x5, State.resetOf (.philox .p2x32)] 0 = .next after := ⟨_, rfl⟩

theorem witness_AssembledCommandsAreAccepted :
    (∃ q, assembleLine .tf2x64 (.mix [1, 2] [3, 4]) = some q) ∧ ∃ q, assembleLine (.philox .p2x32) (.fill 65535) = some q :=
  ⟨⟨_, rfl⟩, ⟨_, rfl⟩⟩

theorem witness_AssemblerRefusesWhatTheFamilyCannotTake :
    (assembleLine (.philox .p2x32) (.seed ['2', 'e', '8', 'a', '1', '9', '1', '3'])).isSome = true := by decide

theorem witness_AssemblerPlacesTheOperands_words :
    (AsmLine.mix [0xffffffffffffffff, 0] [0, 1]).seedDigits = none ∧ available .mix .tf2x64 = true
      ∧ [0xffffffffffffffff, 0].length = Family.tf2x64.words ∧ [0, 1].length = Family.tf2x64.keyWords
      ∧ (∀ x ∈ [0xffffffffffffffff, 0, 1], x < 2 ^ Family.tf2x64.width) := by decide

theorem witness_AssemblerPlacesTheOperands_seed :
    ['2', 'e', '8', 'A', '1', '9', '1', '3'].length = 2 * (Family.philox .p2x32).seedBytes
      ∧ (∀ ch ∈ ['2', 'e', '8', 'A', '1', '9', '1', '3'], (hexDigit ch).isSome = true)
      ∧ (['2', 'e', '8', 'A', '1', '9', '1', '3'][2 * 3]?.bind hexDigit = some 1
        ∧ ['2', 'e', '8', 'A', '1', '9', '1', '3'][2 * 3 + 1]?.bind hexDigit = some 3)
      ∧ (Family.philox .p2x32).seedBytes ≤ 4 := by
  refine ⟨by decide, ?_, by decide, by decide⟩
  intro ch h
  fin_cases h <;> decide

end Sys2Proof.Tests
end

section
/-! # Scope: FAMILY, the word operations and the little-endian packing (spec/00_scope.md R3, R7, R8, R10) -/

namespace Sys2Proof.Machine

/-! ## FAMILY -/

theorem complete_keeps_family {s t : State} {ans : Answer s.family} (h : complete s ans = .next t) :
    t.family = s.family := by
  rw [complete_eq] at h
  cases h
  rfl

theorem exec_keeps_family {i : Instr} {s t : State} (h : exec i s = .next t) : t.family = s.family :=
  complete_keeps_family (exec_eq_complete i s ▸ h)

/-- Settles O15: each way to a next state, as `step_next_cases` lists them, keeps FAMILY. -/
theorem noStepChangesTheFamily : Obligations.NoStepChangesTheFamily := by
  intro s t h
  obtain ⟨-, rfl⟩ | ⟨rest, -, rfl⟩ | ⟨q, rest, why, -, -, hillegal⟩ | ⟨q, rest, i, -, -, hexec⟩ :=
    step_next_cases h
  · rfl
  · rfl
  · exact (complete_keeps_family hillegal).trans (accept_family s q rest)
  · exact (exec_keeps_family hexec).trans (accept_family s q rest)

/-! ## The wide product -/

theorem mulHigh_toNat {w : Nat} (a b : BitVec w) : (mulHigh a b).toNat = a.toNat * b.toNat / 2 ^ w := by
  have hlt : a.toNat * b.toNat / 2 ^ w < 2 ^ w :=
    Nat.div_lt_of_lt_mul (Nat.mul_lt_mul'' a.isLt b.isLt)
  rw [mulHigh, BitVec.extractLsb'_toNat, product_toNat, Nat.shiftRight_eq_div_pow, Nat.mod_eq_of_lt hlt]

theorem mulLow_toNat {w : Nat} (a b : BitVec w) : (mulLow a b).toNat = a.toNat * b.toNat % 2 ^ w := by
  rw [mulLow, BitVec.extractLsb'_toNat, product_toNat, Nat.shiftRight_zero]

/-- Settles O16: the product of two W-bit words fits 2W bits, so its halves are the quotient and the remainder. -/
theorem wideMultiplyLosesNothing : Obligations.WideMultiplyLosesNothing :=
  fun _ a b => ⟨product_toNat a b, mulHigh_toNat a b, mulLow_toNat a b⟩

/-! ## Rotation -/

/-- A bit that stays below 64 comes from the left shift; one that wraps comes from the right shift. -/
theorem rotateLeft64_getLsbD (x : BitVec 64) {r i : Nat} (hr : r < 64) (hi : i < 64) :
    (rotateLeft64 x r).getLsbD ((i + r) % 64) = x.getLsbD i := by
  rw [rotateLeft64, BitVec.getLsbD_or, BitVec.getLsbD_shiftLeft, BitVec.getLsbD_ushiftRight]
  by_cases hwrap : i + r < 64
  · have hout : x.getLsbD (64 - r + (i + r)) = false := BitVec.getLsbD_of_ge x _ (by omega)
    simp [Nat.mod_eq_of_lt hwrap, hwrap, hout]
  · have hmod : (i + r) % 64 = i + r - 64 := by omega
    have hlow : i + r - 64 < r := by omega
    have hback : 64 - r + (i + r - 64) = i := by omega
    simp [hmod, hlow, hback]

/-- Settles O17: the formula is the definition's, and each bit is followed to its place. -/
theorem rotationMovesEachBit : Obligations.RotationMovesEachBit :=
  fun x _ _ hr => ⟨rfl, fun _ hi => rotateLeft64_getLsbD x hr hi⟩

/-! ## Little-endian packing -/

theorem leNat_eq_sum (bs : List Byte) :
    leNat bs = ∑ i : Fin bs.length, bs[i].toNat * 2 ^ (8 * i.val) := by
  induction bs with
  | nil => rfl
  | cons b bs ih =>
    simp only [leNat, List.length_cons, Fin.sum_univ_succ, ih, Finset.mul_sum]
    congr 1
    · simp
    · refine Finset.sum_congr rfl fun i _ => ?_
      simp only [Fin.getElem_fin, Fin.val_succ, List.getElem_cons_succ]
      ring

/-- Byte sequences of one length are told apart by their sums. -/
theorem leNat_injective_of_length {xs ys : List Byte} (hlen : xs.length = ys.length)
    (h : leNat xs = leNat ys) : xs = ys := by
  induction xs generalizing ys with
  | nil => exact (List.length_eq_zero_iff.mp hlen.symm).symm
  | cons x xs ih =>
    obtain _ | ⟨y, ys⟩ := ys
    · cases hlen
    · simp only [leNat] at h
      have hx := x.isLt
      have hy := y.isLt
      have hhead : x = y := BitVec.eq_of_toNat_eq (by omega)
      have htail : xs = ys := ih (by simpa using hlen) (by omega)
      rw [hhead, htail]

theorem two_pow_eight_mul (n : Nat) : 2 ^ (8 * n) = 256 ^ n := Nat.pow_mul 2 8 n

/-- The first `n` bytes of a word are its low `8n` bits. -/
theorem leNat_lowBytes {w : Nat} (x : BitVec w) (n : Nat) :
    leNat ((List.range n).map fun i => x.extractLsb' (8 * i) 8) = x.toNat % 256 ^ n := by
  induction n with
  | zero => simp [leNat, Nat.mod_one]
  | succ n ih =>
    have hbyte : (x.extractLsb' (8 * n) 8).toNat = x.toNat / 256 ^ n % 256 := by
      rw [BitVec.extractLsb'_toNat, Nat.shiftRight_eq_div_pow, two_pow_eight_mul]
    rw [List.range_succ, List.map_append, leNat_append, ih, Nat.mod_pow_succ]
    simp [leNat, hbyte]

theorem leNat_leBytes {wb : Nat} (x : BitVec (8 * wb)) : leNat (leBytes x) = x.toNat := by
  rw [leBytes, leNat_lowBytes, Nat.mul_div_cancel_left wb (by decide), ← two_pow_eight_mul,
    Nat.mod_eq_of_lt x.isLt]

theorem leWord_toNat {wb : Nat} {bs : List Byte} (h : bs.length = wb) :
    (leWord (8 * wb) bs).toNat = leNat bs := by
  rw [leWord, BitVec.toNat_ofNat, two_pow_eight_mul, ← h, Nat.mod_eq_of_lt (leNat_lt bs)]

theorem leWord_leBytes {wb : Nat} (x : BitVec (8 * wb)) : leWord (8 * wb) (leBytes x) = x := by
  rw [leWord, leNat_leBytes, BitVec.ofNat_toNat, BitVec.setWidth_eq]

theorem leBytes_leWord {wb : Nat} {bs : List Byte} (h : bs.length = wb) :
    leBytes (leWord (8 * wb) bs) = bs :=
  leNat_injective_of_length (by simp [h]) (by rw [leNat_leBytes, leWord_toNat h])

/-- Settles O18: a word and its WB bytes have one number, `leNat` of the bytes. -/
theorem littleEndianPackingRoundTrips : Obligations.LittleEndianPackingRoundTrips := by
  intro wb
  have hbytes : 8 * wb / 8 = wb := Nat.mul_div_cancel_left wb (by decide)
  refine ⟨fun bs hlen => ⟨?_, leBytes_leWord hlen⟩, fun x => ⟨?_, fun i hi => ?_, leWord_leBytes x⟩⟩
  · rw [leWord_toNat hlen, leNat_eq_sum]
  · rw [leBytes_length, hbytes]
  · exact leBytes_getElem? x i (by rwa [hbytes])

end Sys2Proof.Machine
end

section
/-! # State: what each command writes, and VALID (spec/10_state.md R20 to R24, R29) -/

namespace Sys2Proof.Machine

/-! ## The registers after a command -/

/-- `Writes r i t`: command `i` may leave the registers `r` as `t` (the "Written by" column of spec/10_state.md).
The operand words, blocks and keys that it writes are left open. -/
inductive Writes {f : Family} (r : Regs f) : Instr → Regs f → Prop where
  /-- A command that writes no register, and every command that ends with an error status (R192). -/
  | nothing (i : Instr) : Writes r i r
  /-- SEED writes every register (R134). -/
  | seed (o : Operands f) : Writes r .seed (seedAnswer f o).1
  /-- SETKEY writes KEY (R135). -/
  | key (k : Key f) : Writes r .setkey { r with key := k }
  /-- SETCTR and GEN write CTR (R136, R137). -/
  | counter {i : Instr} (hi : i = .setctr ∨ i = .gen) (c : Block f) : Writes r i { r with ctr := c }
  /-- NEXT and FILL take words, which leaves KEY and VALID alone (R160 to R162). -/
  | words {i : Instr} {t : Regs f} (hi : i = .next ∨ ∃ n, i = .fill n) (hkey : t.key = r.key)
      (hvalid : t.valid = r.valid) : Writes r i t

section
variable {f : Family} {r t : Regs f} {i : Instr}

theorem requireSeeded_writes {effect : Answer f} (h : Writes r i effect.1) :
    Writes r i (requireSeeded r effect).1 := by
  cases hv : r.valid with
  | false => rw [requireSeeded_of_unseeded hv]; exact .nothing i
  | true => rwa [requireSeeded_of_valid hv]

theorem setkeyAnswer_writes (f : Family) (r : Regs f) (o : Operands f) :
    Writes r .setkey (setkeyAnswer f r o).1 := by
  cases f with
  | tf2x64 => exact requireSeeded_writes (.key _)
  | philox v => exact .nothing _

theorem setctrAnswer_writes (f : Family) (r : Regs f) (o : Operands f) :
    Writes r .setctr (setctrAnswer f r o).1 := by
  cases f with
  | tf2x64 => exact .nothing _
  | philox v => exact requireSeeded_writes (.counter (.inl rfl) _)

theorem roundAnswer_writes (f : Family) (r : Regs f) (o : Operands f) :
    Writes r .round (roundAnswer f r o).1 := by
  cases f <;> exact .nothing _

theorem bumpAnswer_writes (f : Family) (r : Regs f) (o : Operands f) :
    Writes r .bump (bumpAnswer f r o).1 := by
  cases f <;> exact .nothing _

/-- Every command's answer writes only that command's registers. -/
theorem answerOf_writes (i : Instr) (f : Family) (r : Regs f) (o : Operands f) :
    Writes r i (answerOf i f r o).1 := by
  cases i with
  | nop | mix | rdstate | rdbuf => exact .nothing _
  | seed => exact .seed o
  | setkey => exact setkeyAnswer_writes f r o
  | setctr => exact setctrAnswer_writes f r o
  | gen => exact requireSeeded_writes (.counter (.inr rfl) _)
  | next => exact requireSeeded_writes (.words (.inl rfl) (pull_key r) (pull_valid r))
  | fill n => exact requireSeeded_writes (.words (.inr ⟨n, rfl⟩) (takeWords_key _ r) (takeWords_valid _ r))
  | round => exact roundAnswer_writes f r o
  | bump => exact bumpAnswer_writes f r o

theorem Writes.ctr_eq (h : Writes r i t) (hseed : i ≠ .seed) (hsetctr : i ≠ .setctr) (hgen : i ≠ .gen)
    (hnext : i ≠ .next) (hfill : ∀ n, i ≠ .fill n) : t.ctr = r.ctr := by
  cases h with
  | nothing | key => rfl
  | seed => contradiction
  | counter hi => exact absurd hi (not_or.mpr ⟨hsetctr, hgen⟩)
  | words hi => exact absurd hi (not_or.mpr ⟨hnext, not_exists.mpr hfill⟩)

theorem Writes.key_eq (h : Writes r i t) (hseed : i ≠ .seed) (hsetkey : i ≠ .setkey) : t.key = r.key := by
  cases h with
  | nothing | counter => rfl
  | seed | key => contradiction
  | words _ hkey => exact hkey

theorem Writes.buf_cur_eq (h : Writes r i t) (hseed : i ≠ .seed) (hnext : i ≠ .next)
    (hfill : ∀ n, i ≠ .fill n) : t.buf = r.buf ∧ t.cur = r.cur := by
  cases h with
  | nothing | key | counter => exact ⟨rfl, rfl⟩
  | seed => contradiction
  | words hi => exact absurd hi (not_or.mpr ⟨hnext, not_exists.mpr hfill⟩)

theorem Writes.valid_eq (h : Writes r i t) (hseed : i ≠ .seed) : t.valid = r.valid := by
  cases h with
  | nothing | key | counter => rfl
  | seed => contradiction
  | words _ _ hvalid => exact hvalid

/-- No command clears VALID (R24). -/
theorem Writes.valid_of_valid (h : Writes r i t) (hv : r.valid = true) : t.valid = true := by
  cases h with
  | nothing | key | counter => exact hv
  | seed => rfl
  | words _ _ hvalid => exact hvalid.trans hv

end

/-- The one next state of a command: its answer's registers, and its answer's response after the earlier ones. -/
theorem exec_next_eq {i : Instr} {s t : State} (h : exec i s = .next t) :
    t = { s with regs := (answerOf i s.family s.regs s.operands).1,
                 responses := s.responses ++ [(answerOf i s.family s.regs s.operands).2] } := by
  rw [exec_eq_complete, complete_eq] at h
  exact (Host.Outcome.next.inj h).symm

/-- Settles O13: the answer's registers are ones that the command may write, and each register is read off them. -/
theorem commandsWriteOnlyTheirElements : Obligations.CommandsWriteOnlyTheirElements := by
  intro s t i h
  have hw := answerOf_writes i s.family s.regs s.operands
  exact ⟨_, _, exec_next_eq h, hw.ctr_eq, hw.key_eq, hw.buf_cur_eq, hw.valid_eq⟩

/-! ## VALID -/

theorem exec_seed_valid {s t : State} (h : exec .seed s = .next t) : t.regs.valid = true := by
  rw [exec_next_eq h]
  rfl

theorem exec_valid_of_valid {i : Instr} {s t : State} (h : exec i s = .next t) (hv : s.regs.valid = true) :
    t.regs.valid = true := by
  rw [exec_next_eq h]
  exact (answerOf_writes i s.family s.regs s.operands).valid_of_valid hv

theorem answerIllegal_regs_valid {s t : State} (h : answerIllegal s = .next t) :
    t.regs.valid = s.regs.valid := by
  rw [answerIllegal, complete_eq] at h
  cases h
  rfl

/-- A step other than a reset keeps a seeded block seeded (R24). -/
theorem step_valid_of_valid {s t : State} (h : step s = .next t) (hv : s.regs.valid = true)
    (hreset : ¬ ∃ rest, s.pending = .reset :: rest) : t.regs.valid = true := by
  obtain ⟨-, rfl⟩ | ⟨rest, hp, -⟩ | ⟨q, rest, why, -, -, hillegal⟩ | ⟨q, rest, i, -, -, hexec⟩ :=
    step_next_cases h
  · exact hv
  · exact absurd ⟨rest, hp⟩ hreset
  · exact (answerIllegal_regs_valid hillegal).trans hv
  · exact exec_valid_of_valid hexec hv

/-- On an unseeded block, a command that needs a seed and that the family has answers NOT_SEEDED (R191). -/
theorem answerOf_of_unseeded {i : Instr} {f : Family} {r : Regs f} (o : Operands f) (hv : r.valid = false)
    (hneeds : needsSeed i = true) (hav : available i f = true) : answerOf i f r o = raise .notSeeded r := by
  cases i with
  | nop | seed | mix | round | bump | rdstate | rdbuf => cases hneeds
  | gen | next | fill => exact requireSeeded_of_unseeded hv _
  | setkey =>
    cases f with
    | tf2x64 => exact requireSeeded_of_unseeded hv _
    | philox v => cases hav
  | setctr =>
    cases f with
    | tf2x64 => cases hav
    | philox v => exact requireSeeded_of_unseeded hv _

theorem exec_of_unseeded {i : Instr} {s : State} (hv : s.regs.valid = false) (hneeds : needsSeed i = true)
    (hav : available i s.family = true) :
    exec i s = .next { s with responses := s.responses ++ [Response.blank s.family .notSeeded] } := by
  rw [exec_eq_complete, answerOf_of_unseeded s.operands hv hneeds hav, complete_eq, raise_regs, raise_response]

/-- Settles O14: the reset value, the effect of SEED, the step that keeps VALID and the unseeded answer. -/
theorem validIsSetBySeedAndClearedByReset : Obligations.ValidIsSetBySeedAndClearedByReset :=
  ⟨reset_valid, fun _ _ => exec_seed_valid, fun _ _ => step_valid_of_valid, fun _ _ => exec_of_unseeded⟩

end Sys2Proof.Machine
end

section
/-! # The host interface: one response to each request, in order, and blocks that share nothing
(spec/20_memory.md R47 to R52, spec/60_exceptions.md R191) -/

namespace Sys2Proof.Machine

/-! ## The check on a command word -/

/-- `rejection` looks for the first of R69's conditions that fails. -/
theorem rejection_eq_none_iff (cmd : BitVec 32) : rejection cmd = none ↔ wellFormedWord cmd := by
  rw [rejection, opField_eq, rsvField_eq, selField_eq, lenField_eq]
  split_ifs <;> simp_all [wellFormedWord]

/-- The opcode map gives every opcode that R70 does not reserve a command. -/
theorem exists_commandOf {op : Nat} (hop : op ≤ 0xA) (sel len : Nat) : ∃ i, commandOf op sel len = some i := by
  interval_cases op <;> exact ⟨_, rfl⟩

/-- The opcode map gives each command at its own opcode. -/
theorem opcodeOf_of_commandOf {op sel len : Nat} {i : Instr} (h : commandOf op sel len = some i) :
    (opcodeOf i).toNat = op := by
  unfold commandOf at h
  split at h
  case h_11 =>
    -- Opcode 0xA: SEL chooses between RDSTATE and RDBUF, which have one opcode.
    cases h
    split <;> rfl
  all_goals cases h <;> rfl

/-- A word that is not well-formed is rejected; a well-formed one is the command of its fields. -/
theorem decode_cases (cmd : BitVec 32) :
    (¬ wellFormedWord cmd ∧ ∃ why, decode cmd = .error why)
    ∨ (wellFormedWord cmd ∧ ∃ i, decode cmd = .ok i
        ∧ commandOf (cmd.toNat % 16) (selField cmd) (lenField cmd) = some i) := by
  cases hr : rejection cmd with
  | some why =>
    have hwf : ¬ wellFormedWord cmd := by simp [← rejection_eq_none_iff, hr]
    exact .inl ⟨hwf, why, by simp [decode, hr]⟩
  | none =>
    have hwf : wellFormedWord cmd := (rejection_eq_none_iff cmd).mp hr
    obtain ⟨i, hi⟩ := exists_commandOf hwf.1 (selField cmd) (lenField cmd)
    exact .inr ⟨hwf, i, by simp [decode, hr, opField_eq, hi], hi⟩

/-- The opcodes whose command some family lacks (R68). -/
theorem available_eq_false_iff (i : Instr) (f : Family) :
    available i f = false ↔
      ((opcodeOf i).toNat = 0x2 ∧ f ≠ .tf2x64) ∨ ((opcodeOf i).toNat ∈ [0x3, 0x8, 0x9] ∧ f = .tf2x64) := by
  cases i <;> simp [available, opcodeOf]

/-- The opcodes whose command needs a seeded block (R190). -/
theorem needsSeed_eq_true_iff (i : Instr) :
    needsSeed i = true ↔ (opcodeOf i).toNat ∈ [0x2, 0x3, 0x4, 0x5, 0x6] := by
  cases i <;> simp [needsSeed, opcodeOf]

theorem checkedStatus_of_not_wellFormed {cmd : BitVec 32} (h : ¬ wellFormedWord cmd) (f : Family) (valid : Bool) :
    checkedStatus f valid cmd = .illegal :=
  if_pos h

/-- R191's check on a well-formed word, in terms of its command. -/
theorem checkedStatus_of_opcode {cmd : BitVec 32} {i : Instr} (h : wellFormedWord cmd)
    (hop : (opcodeOf i).toNat = cmd.toNat % 16) (f : Family) (valid : Bool) :
    checkedStatus f valid cmd =
      if available i f = false then .unsupported
      else if needsSeed i = true ∧ valid = false then .notSeeded
      else .ok := by
  simp only [available_eq_false_iff, needsSeed_eq_true_iff, hop]
  exact if_neg (not_not_intro h)

/-! ## The answer to a request -/

/-- The answer to a request, whatever its word: that of its command, or ILLEGAL. -/
def answerTo (f : Family) (r : Regs f) (q : Request f) : Answer f :=
  match decode q.cmd with
  | .ok i => answerOf i f r q.operands
  | .error _ => raise .illegal r

/-- The response to a request has the status of R191's check. -/
theorem answerTo_status (f : Family) (r : Regs f) (q : Request f) :
    (answerTo f r q).2.status = checkedStatus f r.valid q.cmd := by
  obtain ⟨hwf, why, hd⟩ | ⟨hwf, i, hd, hi⟩ := decode_cases q.cmd
  · rw [answerTo, hd, checkedStatus_of_not_wellFormed hwf]
    rfl
  · rw [answerTo, hd, checkedStatus_of_opcode hwf (opcodeOf_of_commandOf hi)]
    exact answerOf_status i f r q.operands

theorem step_decoded {s : State} {q : Request s.family} {rest : List (HostAction s.family)} {i : Instr}
    (h : s.pending = .command q :: rest) (hd : decode q.cmd = .ok i) : step s = exec i (accept s q rest) := by
  simp [step, h, hd]

/-- A step on a request, well-formed or not, completes with its answer. -/
theorem step_command {s : State} {q : Request s.family} {rest : List (HostAction s.family)}
    (h : s.pending = .command q :: rest) :
    step s = complete (accept s q rest) (answerTo s.family s.regs q) := by
  cases hd : decode q.cmd with
  | ok i => rw [step_decoded h hd, exec_eq_complete, answerTo, hd]; rfl
  | error why => rw [step_illegal h hd, answerIllegal, answerTo, hd]; rfl

/-- `step_command` on a state written out. -/
theorem step_command_mk {f : Family} (r : Regs f) (o : Operands f) (q : Request f) (p : List (HostAction f))
    (x : List (Response f)) :
    step ⟨f, r, o, .command q :: p, x⟩ =
      .next ⟨f, (answerTo f r q).1, q.operands, p, x ++ [(answerTo f r q).2]⟩ :=
  step_command rfl

/-- Settles O5: the state that `accept` builds is the one the statement writes out. -/
theorem stepRunsTheDecodedCommand : Obligations.StepRunsTheDecodedCommand :=
  fun _ _ _ _ => step_decoded

/-- Settles O6: a case for each thing the host's next action can be. -/
theorem onlyOverlappingCommandsHaveNoStep : Obligations.OnlyOverlappingCommandsHaveNoStep := by
  intro s
  refine ⟨fun ⟨_, _, _, h⟩ => step_overlapping h, fun hno => ?_⟩
  match hp : s.pending with
  | [] => exact ⟨_, step_idle hp⟩
  | .command q :: rest => exact ⟨_, step_command hp⟩
  | .overlapping q1 q2 :: rest => exact absurd ⟨q1, q2, rest, hp⟩ hno
  | .reset :: rest => exact ⟨_, step_reset hp⟩

/-! ## A sequence of requests -/

/-- As many steps as there are requests serve them, with one response each after the earlier ones, and leave what
the host does next pending. -/
theorem run_requests {f : Family} (qs : List (Request f)) (p : List (HostAction f)) (r : Regs f) (o : Operands f)
    (x : List (Response f)) :
    ∃ t o' answers, run qs.length ⟨f, r, o, qs.map .command ++ p, x⟩ = .next ⟨f, t, o', p, x ++ answers⟩
      ∧ answers.length = qs.length := by
  induction qs generalizing r o x with
  | nil => exact ⟨r, o, [], by simp, rfl⟩
  | cons q qs ih =>
    obtain ⟨t, o', answers, hrun, hlen⟩ := ih (answerTo f r q).1 q.operands (x ++ [(answerTo f r q).2])
    have hstep := step_command_mk r o q (qs.map .command ++ p) x
    refine ⟨t, o', (answerTo f r q).2 :: answers, ?_, by simp [hlen]⟩
    rw [List.append_cons, ← hrun]
    exact run_succ_of_next hstep

/-- Settles O45: the requests before are served in order, and one more step serves the last one. -/
theorem commandsAreAnsweredInOrder : Obligations.CommandsAreAnsweredInOrder := by
  intro f r o x before q
  obtain ⟨t, o', answers, hrun, hlen⟩ := run_requests before [.command q] r o x
  have hlast := run_succ_of_next (k := 0) (step_command_mk t o' q [] (x ++ answers))
  exact ⟨t, _, o', answers, _, hrun, hlen, (run_add _ 1 hrun).trans hlast, answerTo_status f t q⟩

/-! ## Several blocks -/

/-- What a next state of a system can be: the same system where no block stands at the place, or that block's own
step written there. -/
theorem stepUnit_next_cases {units after : Units} {n : Nat} (h : stepUnit units n = .next after) :
    (units[n]? = none ∧ after = units)
    ∨ ∃ s t, units[n]? = some s ∧ step s = .next t ∧ after = units.set n t := by
  unfold stepUnit at h
  split at h
  · rename_i hn
    exact .inl ⟨hn, by simpa using h.symm⟩
  · rename_i s hn
    split at h
    · rename_i t ht
      exact .inr ⟨s, t, hn, ht, by simpa using h.symm⟩
    · cases h
    · cases h

/-- Settles O48: only the place of the stepped block is written, with that block's next state. -/
theorem blocksShareNothing : Obligations.BlocksShareNothing := by
  intro units after n h
  obtain ⟨hn, rfl⟩ | ⟨s, t, hn, ht, rfl⟩ := stepUnit_next_cases h
  · exact ⟨rfl, fun _ _ => rfl, fun s hs => by cases hn.symm.trans hs⟩
  · have hlt : n < units.length := (List.getElem?_eq_some_iff.mp hn).1
    refine ⟨List.length_set, fun m hm => List.getElem?_set_ne hm.symm, fun s' hs' => ?_⟩
    cases hn.symm.trans hs'
    exact ⟨t, ht, List.getElem?_set_self hlt⟩

end Sys2Proof.Machine
end

section
/-! # Encoding: the command word, the state summary and the responses (spec/30_encoding.md R61 to R71) -/

namespace Sys2Proof.Machine

/-! ## Decoding an encoding -/

/-- Each field of an encoding is the one that the encoder wrote. -/
theorem fields_encode (i : Instr) :
    opField (encode i) = (opcodeOf i).toNat ∧ selField (encode i) = (selectorOf i).toNat
      ∧ rsvField (encode i) = 0 ∧ lenField (encode i) = (lengthOf i).toNat := by
  obtain ⟨hop, hsel, hrsv, hlen⟩ := Laws.EncodedFields.fields (lengthOf i) (selectorOf i) (opcodeOf i)
  exact ⟨congrArg BitVec.toNat hop, congrArg BitVec.toNat hsel, congrArg BitVec.toNat hrsv,
    congrArg BitVec.toNat hlen⟩

/-- FILL alone has a byte count to check. -/
theorem wf_iff (i : Instr) : i.wf = true ↔ ∀ n, i = .fill n → n ≤ 65535 := by
  cases i with
  | fill len => simp [Instr.wf, Nat.lt_succ_iff]
  | _ => simp [Instr.wf]

/-- R69's conditions hold of every encoding: SEL is not 0 for RDBUF alone, and LEN for FILL alone. -/
theorem rejection_encode (i : Instr) : rejection (encode i) = none := by
  simp only [rejection, fields_encode]
  cases i <;> simp [opcodeOf, selectorOf, lengthOf]

/-- The opcode map reads a well-formed command back from its fields; LEN fits its 16 bits. -/
theorem commandOf_encode {i : Instr} (h : i.wf = true) :
    commandOf (opcodeOf i).toNat (selectorOf i).toNat (lengthOf i).toNat = some i := by
  cases i with
  | fill len =>
    have hlen : len < 65536 := of_decide_eq_true h
    simp [commandOf, opcodeOf, lengthOf, hlen]
  | _ => rfl

theorem decode_encode {i : Instr} (h : i.wf = true) : decode (encode i) = .ok i := by
  simp only [decode, rejection_encode, fields_encode, commandOf_encode h]

/-- Settles O1: the decoder reads the fields that the encoder wrote. -/
theorem decodeOfEncodeIsTheCommand : Obligations.DecodeOfEncodeIsTheCommand :=
  fun _ => decode_encode

/-- Settles O4: each word written out is the encoding of a well-formed command. -/
theorem writtenOutWordsDecode : Obligations.WrittenOutWordsDecode :=
  ⟨decode_encode (i := .nop) rfl, decode_encode (i := .seed) rfl, decode_encode (i := .setkey) rfl,
    decode_encode (i := .setctr) rfl, decode_encode (i := .gen) rfl, decode_encode (i := .next) rfl,
    decode_encode (i := .fill 11) rfl, decode_encode (i := .fill 65535) rfl, decode_encode (i := .mix) rfl,
    decode_encode (i := .round) rfl, decode_encode (i := .bump) rfl, decode_encode (i := .rdstate) rfl,
    decode_encode (i := .rdbuf) rfl⟩

/-! ## Encoding what a word decodes to -/

/-- A word that decodes meets R69's conditions and is the command of its fields. -/
theorem decode_eq_ok {cmd : BitVec 32} {i : Instr} (h : decode cmd = .ok i) :
    wellFormedWord cmd ∧ commandOf (cmd.toNat % 16) (selField cmd) (lenField cmd) = some i := by
  obtain ⟨-, why, hd⟩ | ⟨hwf, j, hd, hj⟩ := decode_cases cmd
  · cases hd.symm.trans h
  · cases hd.symm.trans h
    exact ⟨hwf, hj⟩

/-- R191's check on a word that decodes, in terms of its command. -/
theorem checkedStatus_of_decode {cmd : BitVec 32} {i : Instr} (h : decode cmd = .ok i) (f : Family) (valid : Bool) :
    checkedStatus f valid cmd =
      if available i f = false then .unsupported
      else if needsSeed i = true ∧ valid = false then .notSeeded
      else .ok := by
  obtain ⟨hwf, hi⟩ := decode_eq_ok h
  exact checkedStatus_of_opcode hwf (opcodeOf_of_commandOf hi) f valid

/-- SEL chooses between commands at opcode 0xA alone, where it is 0 or 1; it is 0 elsewhere. -/
theorem selectorOf_of_commandOf {op sel len : Nat} {i : Instr} (h : commandOf op sel len = some i)
    (hsel : sel = 0 ∨ (op = 0xA ∧ sel = 1)) : (selectorOf i).toNat = sel := by
  unfold commandOf at h
  split at h
  case h_11 =>
    -- Opcode 0xA: RDSTATE or RDBUF.
    obtain rfl | ⟨-, rfl⟩ := hsel <;> cases h <;> rfl
  all_goals
    cases h <;> simpa [selectorOf, eq_comm] using hsel

/-- LEN is FILL's count at opcode 0x6, and is 0 elsewhere. -/
theorem lengthOf_of_commandOf {op sel len : Nat} {i : Instr} (h : commandOf op sel len = some i)
    (hlen : len = 0 ∨ op = 0x6) (hlt : len < 65536) : (lengthOf i).toNat = len ∧ i.wf = true := by
  unfold commandOf at h
  split at h
  case h_7 =>
    -- Opcode 0x6: FILL.
    cases h
    simp [lengthOf, Instr.wf, hlt]
  case h_11 =>
    -- Opcode 0xA: RDSTATE or RDBUF.
    cases h
    split <;> simpa [lengthOf, Instr.wf, eq_comm] using hlen
  all_goals
    cases h <;> simpa [lengthOf, Instr.wf, eq_comm] using hlen

/-- What a word decodes to is well-formed and encodes to that word: the fields that `encode_toNat` sums are the
word's own, and RSV is 0. -/
theorem encode_of_decode {cmd : BitVec 32} {i : Instr} (h : decode cmd = .ok i) :
    encode i = cmd ∧ i.wf = true := by
  obtain ⟨⟨-, hrsv, hselOk, hlenOk⟩, hi⟩ := decode_eq_ok h
  have hlt := cmd.isLt
  rw [selField_eq, lenField_eq] at hi
  have hop := opcodeOf_of_commandOf hi
  have hsel := selectorOf_of_commandOf hi hselOk
  obtain ⟨hlen, hwf⟩ := lengthOf_of_commandOf hi hlenOk (by omega)
  refine ⟨BitVec.eq_of_toNat_eq ?_, hwf⟩
  rw [encode_toNat, hop, hsel, hlen]
  omega

/-- Settles O2: the command's opcode, selector and length are the word's OP, SEL and LEN. -/
theorem encodeOfDecodeIsTheWord : Obligations.EncodeOfDecodeIsTheWord :=
  fun _ _ => encode_of_decode

/-! ## Words that are not well-formed -/

theorem decodes_iff_wellFormedWord (cmd : BitVec 32) : (∃ i, decode cmd = .ok i) ↔ wellFormedWord cmd := by
  obtain ⟨hwf, why, hd⟩ | ⟨hwf, i, hd, -⟩ := decode_cases cmd
  · exact iff_of_false (by simp [hd]) hwf
  · exact iff_of_true ⟨i, hd⟩ hwf

theorem answerTo_of_not_wellFormed {f : Family} (r : Regs f) {q : Request f} (h : ¬ wellFormedWord q.cmd) :
    answerTo f r q = raise .illegal r := by
  obtain ⟨-, why, hd⟩ | ⟨hwf, -⟩ := decode_cases q.cmd
  · rw [answerTo, hd]
  · exact absurd hwf h

/-- Settles O3: the decoder's check is R69's, and a word that fails it is answered by `raise`. -/
theorem illformedWordsAreIllegalWithNoEffect : Obligations.IllformedWordsAreIllegalWithNoEffect := by
  refine ⟨decodes_iff_wellFormedWord, fun s q rest hp hwf => ?_, by decide, by decide, by decide⟩
  rw [step_command hp, answerTo_of_not_wellFormed s.regs hwf]
  rfl

/-! ## The state summary -/

theorem family_id_le_four (f : Family) : f.id.toNat ≤ 4 := by
  rcases f with _ | (_ | _ | _ | _) <;> decide

theorem Regs.cur_le_four {f : Family} (r : Regs f) : r.cur.val ≤ 4 :=
  Nat.le_trans (Nat.le_of_lt_succ r.cur.isLt) f.words_le_four

/-- The three fields of F do not overlap, so that F is their sum (R66). -/
theorem stateSummary_toNat {f : Family} (r : Regs f) :
    (stateSummary r).toNat = f.id.toNat * 16 + r.valid.toNat * 8 + r.cur.val := by
  have hcur := r.cur_le_four
  have hid := family_id_le_four f
  have hvalid := r.valid.toNat_le
  have hlow : r.valid.toNat <<< 3 ||| r.cur.val = r.valid.toNat * 8 + r.cur.val := by
    rw [← Nat.shiftLeft_add_eq_or_of_lt (by omega), Nat.shiftLeft_eq]
  have hall : f.id.toNat <<< 4 ||| (r.valid.toNat * 8 + r.cur.val) =
      f.id.toNat * 16 + (r.valid.toNat * 8 + r.cur.val) := by
    rw [← Nat.shiftLeft_add_eq_or_of_lt (by omega), Nat.shiftLeft_eq]
  simp only [stateSummary, BitVec.toNat_or, BitVec.toNat_shiftLeft, BitVec.toNat_setWidth, BitVec.toNat_ofBool,
    BitVec.toNat_ofNat, Nat.or_assoc]
  simp (disch := omega) only [Nat.mod_eq_of_lt, hlow, hall, Nat.add_assoc]

/-- Settles O39: each field is read off F's number. -/
theorem summaryFieldLayout : Obligations.SummaryFieldLayout := by
  intro f r
  have hcur := r.cur_le_four
  have hid := family_id_le_four f
  have hvalid := r.valid.toNat_le
  have hsum := stateSummary_toNat r
  refine ⟨?_, ?_, BitVec.eq_of_toNat_eq ?_, hid, ?_, hsum⟩
  · rw [BitVec.extractLsb'_toNat, Nat.shiftRight_zero, hsum]
    omega
  · have hbit : (stateSummary r).toNat / 2 ^ 3 % 2 = r.valid.toNat := by omega
    rw [BitVec.getLsbD, Nat.testBit_eq_decide_div_mod_eq, hbit]
    cases r.valid <;> rfl
  · rw [BitVec.extractLsb'_toNat, Nat.shiftRight_eq_div_pow, hsum]
    omega
  · have hbit : (stateSummary r).toNat < 2 ^ 7 := by omega
    exact Nat.testBit_lt_two_pow hbit

/-! ## The responses a block can give -/

/-- A response with status OK, by its fields (R65, R66). -/
theorem legal_of_ok {f : Family} {d : Vector (Word f) 4} {e : Vector (Word f) 2} {summary : BitVec 8}
    {bytes : List Byte} (hd : ∀ i (_ : i < 4), f.words ≤ i → d[i] = 0)
    (he : ∀ j (_ : j < 2), f.keyWords ≤ j → e[j] = 0)
    (hf : summary = 0 ∨ (summary.toNat / 16 = f.id.toNat ∧ summary.toNat % 8 ≤ f.words))
    (hbytes : bytes.length < 65536) :
    Response.Legal (⟨.ok, d, e, summary, bytes⟩ : Response f) :=
  ⟨fun i => hd i.val i.isLt, fun j => he j.val j.isLt, fun h => absurd rfl h, hf, hbytes⟩

theorem replicate_zero_beyond {w n : Nat} (m i : Nat) (h : i < n) (_ : m ≤ i) :
    (Vector.replicate n (0 : BitVec w))[i] = 0 := by simp

theorem blank_legal (f : Family) (st : Status) : (Response.blank f st).Legal :=
  ⟨fun i => replicate_zero_beyond _ i.val i.isLt, fun j => replicate_zero_beyond _ j.val j.isLt, fun _ => rfl,
    .inl rfl, by simp⟩

theorem blockResult_beyond {f : Family} (b : Block f) (i : Nat) (h : i < 4) (hi : f.words ≤ i) :
    (blockResult b)[i] = 0 := by
  simp [Nat.not_lt.mpr hi]

theorem keyResult_beyond {f : Family} (k : Key f) (j : Nat) (h : j < 2) (hj : f.keyWords ≤ j) :
    (keyResult k)[j] = 0 := by
  simp [Nat.not_lt.mpr hj]

theorem wordResult_beyond {f : Family} (w : Word f) (i : Nat) (h : i < 4) (hi : f.words ≤ i) :
    (wordResult w)[i] = 0 := by
  have hpos := f.words_pos
  match i, h with
  | 0, _ => omega
  | 1, _ | 2, _ | 3, _ => rfl

theorem stateSummary_legal {f : Family} (r : Regs f) :
    stateSummary r = 0 ∨ ((stateSummary r).toNat / 16 = f.id.toNat ∧ (stateSummary r).toNat % 8 ≤ f.words) := by
  have hcur := r.cur_le_four
  have hmax : r.cur.val ≤ f.words := Nat.le_of_lt_succ r.cur.isLt
  have hvalid := r.valid.toNat_le
  have hsum := stateSummary_toNat r
  exact .inr (by omega)

section
variable {f : Family} (r : Regs f) (o : Operands f)

/-- D holds a block, and the other fields are blank. -/
theorem blockResponse_legal (b : Block f) : Response.Legal { Response.blank f .ok with d := blockResult b } :=
  legal_of_ok (blockResult_beyond b) (replicate_zero_beyond _) (.inl rfl) (by simp)

theorem requireSeeded_legal {effect : Answer f} (h : effect.2.Legal) : (requireSeeded r effect).2.Legal := by
  cases hv : r.valid with
  | false => rw [requireSeeded_of_unseeded hv]; exact blank_legal f .notSeeded
  | true => rwa [requireSeeded_of_valid hv]

theorem setkeyAnswer_legal : (setkeyAnswer f r o).2.Legal := by
  cases f with
  | tf2x64 => exact requireSeeded_legal r (blank_legal _ _)
  | philox v => exact blank_legal _ _

theorem setctrAnswer_legal : (setctrAnswer f r o).2.Legal := by
  cases f with
  | tf2x64 => exact blank_legal _ _
  | philox v => exact requireSeeded_legal r (blank_legal _ _)

theorem roundAnswer_legal : (roundAnswer f r o).2.Legal := by
  cases f with
  | tf2x64 => exact blank_legal _ _
  | philox v => exact blockResponse_legal _

theorem bumpAnswer_legal : (bumpAnswer f r o).2.Legal := by
  cases f with
  | tf2x64 => exact blank_legal _ _
  | philox v => exact legal_of_ok (replicate_zero_beyond _) (keyResult_beyond _) (.inl rfl) (by simp)

theorem nextAnswer_legal : (nextAnswer f r).2.Legal :=
  requireSeeded_legal r (legal_of_ok (wordResult_beyond _) (replicate_zero_beyond _) (.inl rfl) (by simp))

theorem fillAnswer_legal {n : Nat} (h : n < 65536) : (fillAnswer f n r).2.Legal :=
  requireSeeded_legal r (legal_of_ok (replicate_zero_beyond _) (replicate_zero_beyond _) (.inl rfl)
    (Nat.lt_of_le_of_lt (List.length_take_le n _) h))

theorem rdstateAnswer_legal : (rdstateAnswer f r).2.Legal :=
  legal_of_ok (blockResult_beyond _) (keyResult_beyond _) (stateSummary_legal r) (by simp)

theorem rdbufAnswer_legal : (rdbufAnswer f r).2.Legal :=
  legal_of_ok (blockResult_beyond _) (replicate_zero_beyond _) (stateSummary_legal r) (by simp)

/-- A well-formed command gives a legal response: LEN bounds the bytes of FILL. -/
theorem answerOf_legal {i : Instr} (h : i.wf = true) : (answerOf i f r o).2.Legal := by
  cases i with
  | nop | seed => exact blank_legal f .ok
  | setkey => exact setkeyAnswer_legal r o
  | setctr => exact setctrAnswer_legal r o
  | gen => exact requireSeeded_legal r (blockResponse_legal _)
  | next => exact nextAnswer_legal r
  | fill n => exact fillAnswer_legal r (of_decide_eq_true h)
  | mix => exact blockResponse_legal _
  | round => exact roundAnswer_legal r o
  | bump => exact bumpAnswer_legal r o
  | rdstate => exact rdstateAnswer_legal r
  | rdbuf => exact rdbufAnswer_legal r

/-! ## The invariant of a run -/

variable {r} in
/-- On an unseeded block every command but SEED keeps the registers: one that would write them needs a seed. -/
theorem answerOf_regs_of_unseeded {i : Instr} (hv : r.valid = false) (hseed : i ≠ .seed) :
    (answerOf i f r o).1 = r := by
  have hguard (effect : Answer f) : (requireSeeded r effect).1 = r := by
    rw [requireSeeded_of_unseeded hv, raise_regs]
  cases i with
  | seed => contradiction
  | nop | mix | rdstate | rdbuf => rfl
  | gen | next | fill => exact hguard _
  | setkey =>
    cases f with
    | tf2x64 => exact hguard _
    | philox v => rfl
  | setctr =>
    cases f with
    | tf2x64 => rfl
    | philox v => exact hguard _
  | round | bump => cases f <;> rfl

variable {r o} in
/-- A block that a command leaves unseeded has the registers that it had before. -/
theorem answerOf_regs_of_left_unseeded {i : Instr} (h : (answerOf i f r o).1.valid = false) :
    (answerOf i f r o).1 = r := by
  cases hv : r.valid with
  | true => simp [(answerOf_writes i f r o).valid_of_valid hv] at h
  | false =>
    refine answerOf_regs_of_unseeded o hv ?_
    rintro rfl
    cases h

end

/-- The end of a command keeps the invariant, when an answer that leaves the block unseeded keeps its registers and
the response is a legal one. -/
theorem complete_keeps_inv {s t : State} {ans : Answer s.family} (hs : Inv s) (h : complete s ans = .next t)
    (hregs : ans.1.valid = false → ans.1 = s.regs) (hlegal : ans.2.Legal) : Inv t := by
  obtain ⟨hreset, hresponses⟩ := hs
  cases h
  refine ⟨fun hv => ?_, fun resp hresp => ?_⟩
  · have hkept : ans.1 = s.regs := hregs hv
    exact hkept.trans (hreset (hkept ▸ hv))
  · obtain hold | hnew := List.mem_append.mp hresp
    · exact hresponses resp hold
    · exact List.mem_singleton.mp hnew ▸ hlegal

theorem answerIllegal_keeps_inv {s t : State} (hs : Inv s) (h : answerIllegal s = .next t) : Inv t :=
  complete_keeps_inv hs h (fun _ => raise_regs _ _) (blank_legal _ _)

theorem exec_keeps_inv {i : Instr} {s t : State} (hs : Inv s) (h : exec i s = .next t) (hwf : i.wf = true) :
    Inv t :=
  complete_keeps_inv hs (exec_eq_complete i s ▸ h) answerOf_regs_of_left_unseeded
    (answerOf_legal s.regs s.operands hwf)

theorem resetBlock_inv {s : State} (rest : List (HostAction s.family)) (hs : Inv s) : Inv (resetBlock s rest) :=
  have ⟨_, hresponses⟩ := hs
  ⟨fun _ => resetBlock_regs s rest, hresponses⟩

/-- Settles O46: each way to a next state, as `step_next_cases` lists them, keeps the invariant; a command that the
decoder gives is well-formed (`encode_of_decode`). -/
theorem everyStepKeepsTheInvariant : Obligations.EveryStepKeepsTheInvariant := by
  intro s t hs h
  -- Taking a request leaves the registers and the responses, which are all that the invariant speaks of.
  have haccept (q : Request s.family) (rest : List (HostAction s.family)) : Inv (accept s q rest) := hs
  obtain ⟨-, rfl⟩ | ⟨rest, -, rfl⟩ | ⟨q, rest, why, -, -, hillegal⟩ | ⟨q, rest, i, -, hd, hexec⟩ :=
    step_next_cases h
  · exact hs
  · exact resetBlock_inv rest hs
  · exact answerIllegal_keeps_inv (haccept q rest) hillegal
  · exact exec_keeps_inv (haccept q rest) hexec (encode_of_decode hd).2

end Sys2Proof.Machine
end

section
/-! # The assembler: what a line of text becomes (spec/30_encoding.md R72, R73) -/

namespace Sys2Proof.Machine

/-! ## Lists of words -/

/-- A list of numbers that a block of family `f` takes as `count` words (R72; R5). -/
def WordList (f : Family) (count : Nat) (xs : List Nat) : Prop :=
  xs.length = count ∧ ∀ x ∈ xs, x < 2 ^ f.width

theorem fits_iff (f : Family) (count : Nat) (xs : List Nat) : fits f count xs = true ↔ WordList f count xs := by
  simp [fits, WordList]

/-- The assembler's check of a list that a line may lack. -/
theorem isSome_fits_iff (f : Family) (count : Nat) (list : Option (List Nat)) :
    (list.isSome = true → fits f count (list.getD []) = true) ↔ ∀ xs, list = some xs → WordList f count xs := by
  cases list <;> simp [fits_iff]

@[simp] theorem laidOut_getElem (w n : Nat) (xs : List Nat) (i : Nat) (h : i < n) :
    (laidOut w n xs)[i] = BitVec.ofNat w (xs.getD i 0) := by
  simp [laidOut]

theorem laidOut_toNat {w : Nat} {xs : List Nat} (hxs : ∀ x ∈ xs, x < 2 ^ w) (n i : Nat) (h : i < n) :
    (laidOut w n xs)[i].toNat = xs.getD i 0 := by
  have hlt : xs.getD i 0 < 2 ^ w := by
    by_cases hi : i < xs.length
    · simp [hi, hxs]
    · simp [hi]
  rw [laidOut_getElem, BitVec.toNat_ofNat, Nat.mod_eq_of_lt hlt]

theorem laidOut_beyond {xs : List Nat} {i : Nat} (hi : xs.length ≤ i) (w n : Nat) (h : i < n) :
    (laidOut w n xs)[i] = 0 := by
  simp [hi]

theorem laidOut_nil (w n i : Nat) (h : i < n) : (laidOut w n [])[i] = 0 :=
  laidOut_beyond (Nat.zero_le i) w n h

/-! ## Seed strings -/

theorem hexDigit_lt {ch : Char} {d : Nat} (h : hexDigit ch = some d) : d < 16 := by
  have hrange {lo hi : Char} (hch : lo ≤ ch ∧ ch ≤ hi) : ch.toNat ≤ hi.toNat := hch.2
  have hends : '0'.toNat = 48 ∧ '9'.toNat = 57 ∧ 'a'.toNat = 97 ∧ 'f'.toNat = 102 ∧ 'A'.toNat = 65
      ∧ 'F'.toNat = 70 := by decide
  unfold hexDigit at h
  split_ifs at h with hch hch hch
  all_goals
    have := hrange hch
    cases h
    omega

/-- The bytes of a seed string, one digit pair at a time. -/
theorem seedBytesOf_cons_eq_some {hi lo : Char} {rest : List Char} {bytes : List Byte} :
    seedBytesOf (hi :: lo :: rest) = some bytes ↔
      ∃ h l bs, hexDigit hi = some h ∧ hexDigit lo = some l ∧ seedBytesOf rest = some bs
        ∧ bytes = BitVec.ofNat 8 (16 * h + l) :: bs := by
  rw [seedBytesOf]
  cases hexDigit hi <;> cases hexDigit lo <;> cases seedBytesOf rest <;> simp [eq_comm]

theorem length_of_seedBytesOf :
    ∀ {digits : List Char} {bytes : List Byte}, seedBytesOf digits = some bytes → digits.length = 2 * bytes.length
  | [], _, h => by cases h; rfl
  | [_], _, h => by cases h
  | _ :: _ :: _, _, h => by
    obtain ⟨_, _, bs, -, -, hrest, rfl⟩ := seedBytesOf_cons_eq_some.mp h
    have hlen := length_of_seedBytesOf hrest
    simp only [List.length_cons]
    omega

/-- An even number of hexadecimal digits is a seed string. -/
theorem exists_seedBytesOf :
    ∀ {digits : List Char} {n : Nat}, digits.length = 2 * n → (∀ ch ∈ digits, (hexDigit ch).isSome = true) →
      ∃ bytes, seedBytesOf digits = some bytes
  | [], _, _, _ => ⟨[], rfl⟩
  | [_], _, hlen, _ => by rw [List.length_singleton] at hlen; omega
  | hi :: lo :: rest, n, hlen, hdigits => by
    simp only [List.length_cons] at hlen
    obtain ⟨h, hh⟩ := Option.isSome_iff_exists.mp (hdigits hi (by simp))
    obtain ⟨l, hl⟩ := Option.isSome_iff_exists.mp (hdigits lo (by simp))
    obtain ⟨bs, hbs⟩ := exists_seedBytesOf (digits := rest) (n := n - 1) (by omega)
      fun ch hch => hdigits ch (by simp [hch])
    exact ⟨_, seedBytesOf_cons_eq_some.mpr ⟨h, l, bs, hh, hl, hbs, rfl⟩⟩

/-- Byte `i` of a seed string is made of digits `2i` and `2i + 1`, the high digit first. -/
theorem seedBytesOf_getElem? {digits : List Char} {bytes : List Byte} {i hi lo : Nat}
    (h : seedBytesOf digits = some bytes) (hhi : digits[2 * i]?.bind hexDigit = some hi)
    (hlo : digits[2 * i + 1]?.bind hexDigit = some lo) : bytes[i]? = some (BitVec.ofNat 8 (16 * hi + lo)) := by
  induction i generalizing digits bytes with
  | zero =>
    match digits with
    | [] | [_] => cases hlo
    | _ :: _ :: _ =>
      obtain ⟨x, y, bs, hx, hy, -, rfl⟩ := seedBytesOf_cons_eq_some.mp h
      cases hx.symm.trans hhi
      cases hy.symm.trans hlo
      rfl
  | succ i ih =>
    match digits with
    | [] | [_] => cases hlo
    | _ :: _ :: _ =>
      obtain ⟨_, _, bs, -, -, hrest, rfl⟩ := seedBytesOf_cons_eq_some.mp h
      exact ih hrest hhi hlo

theorem seedByte_toNat {digits : List Char} {bytes : List Byte} {i hi lo : Nat}
    (h : seedBytesOf digits = some bytes) (hhi : digits[2 * i]?.bind hexDigit = some hi)
    (hlo : digits[2 * i + 1]?.bind hexDigit = some lo) (n : Nat) (hn : i < n) :
    (laidOut 8 n (bytes.map BitVec.toNat))[i].toNat = 16 * hi + lo := by
  obtain ⟨_, -, hhigh⟩ := Option.bind_eq_some_iff.mp hhi
  obtain ⟨_, -, hlow⟩ := Option.bind_eq_some_iff.mp hlo
  have hfit : 16 * hi + lo < 2 ^ 8 := by
    have := hexDigit_lt hhigh
    have := hexDigit_lt hlow
    omega
  have hbyte := seedBytesOf_getElem? h hhi hlo
  simpa [hbyte] using hfit

/-! ## Lines -/

/-- What a line that is not refused for a block of family `f` meets, `bytes` being its seed string's (R72). -/
structure AsmLine.Accepted (line : AsmLine) (f : Family) (bytes : List Byte) : Prop where
  available : available line.command f = true
  wf : line.command.wf = true
  counterList : ∀ xs, line.counterList = some xs → WordList f f.words xs
  keyList : ∀ xs, line.keyList = some xs → WordList f f.keyWords xs
  seedDigits : line.seedDigits.isSome = true → bytes.length = f.seedBytes

/-- The request that a line becomes, `bytes` being its seed string's. -/
def AsmLine.request (line : AsmLine) (f : Family) (bytes : List Byte) : Request f where
  cmd := encode line.command
  operands :=
    { a := laidOut f.width 4 (line.counterList.getD [])
      k := laidOut f.width 2 (line.keyList.getD [])
      s := laidOut 8 16 (bytes.map BitVec.toNat) }

/-- The checks are those that `assembleLine` makes. -/
theorem AsmLine.accepted_iff (line : AsmLine) (f : Family) (bytes : List Byte) :
    (available line.command f = true ∧ line.command.wf = true
        ∧ (line.counterList.isSome = true → fits f f.words (line.counterList.getD []) = true)
        ∧ (line.keyList.isSome = true → fits f f.keyWords (line.keyList.getD []) = true)
        ∧ (line.seedDigits.isSome = true → bytes.length = f.seedBytes)) ↔ line.Accepted f bytes := by
  rw [isSome_fits_iff, isSome_fits_iff]
  exact ⟨fun ⟨hav, hwf, hcounter, hkey, hseed⟩ => ⟨hav, hwf, hcounter, hkey, hseed⟩,
    fun ⟨hav, hwf, hcounter, hkey, hseed⟩ => ⟨hav, hwf, hcounter, hkey, hseed⟩⟩

/-- The assembler reads the seed string, makes its checks and lays out the request. -/
theorem assembleLine_eq_some_iff {f : Family} {line : AsmLine} {q : Request f} :
    assembleLine f line = some q ↔
      ∃ bytes, seedBytesOf (line.seedDigits.getD []) = some bytes ∧ line.Accepted f bytes
        ∧ line.request f bytes = q := by
  unfold assembleLine
  cases seedBytesOf (line.seedDigits.getD []) with
  | none => simp
  | some bytes => simp [AsmLine.accepted_iff, AsmLine.request]

/-- Settles O49: an accepted line's word is its command's encoding. -/
theorem assembledCommandsAreAccepted : Obligations.AssembledCommandsAreAccepted := by
  intro f line q h
  obtain ⟨bytes, -, haccepted, rfl⟩ := assembleLine_eq_some_iff.mp h
  have hd : decode (encode line.command) = .ok line.command := decode_encode haccepted.wf
  refine ⟨hd, haccepted.available, (checkedStatus_of_decode hd f true).trans ?_⟩
  simp [haccepted.available]

/-- Settles O50: an assembled line meets the assembler's checks, and its seed string has two digits a byte. -/
theorem assemblerRefusesWhatTheFamilyCannotTake : Obligations.AssemblerRefusesWhatTheFamilyCannotTake := by
  intro f line h
  obtain ⟨q, hq⟩ := Option.isSome_iff_exists.mp h
  obtain ⟨bytes, hbytes, haccepted, -⟩ := assembleLine_eq_some_iff.mp hq
  refine ⟨fun xs hxs => (haccepted.counterList xs hxs).1, fun xs hxs => (haccepted.keyList xs hxs).1,
    fun digits hdigits => ?_, (wf_iff _).mp haccepted.wf, haccepted.available⟩
  rw [hdigits, Option.getD_some] at hbytes
  rw [length_of_seedBytesOf hbytes, haccepted.seedDigits (by simp [hdigits])]

theorem assembleLine_of_accepted {f : Family} {line : AsmLine} {bytes : List Byte}
    (hbytes : seedBytesOf (line.seedDigits.getD []) = some bytes) (h : line.Accepted f bytes) :
    assembleLine f line = some (line.request f bytes) :=
  assembleLine_eq_some_iff.mpr ⟨bytes, hbytes, h, rfl⟩

theorem getD_lt_of_wordList {f : Family} {count : Nat} {list : Option (List Nat)}
    (h : ∀ xs, list = some xs → WordList f count xs) : ∀ x ∈ list.getD [], x < 2 ^ f.width := by
  cases list with
  | none => simp
  | some xs => exact (h xs rfl).2

/-- Settles O51: an accepted line's numbers and bytes are laid out in order, with 0 above them. -/
theorem assemblerPlacesTheOperands : Obligations.AssemblerPlacesTheOperands := by
  refine ⟨fun f line hseed hav hfill hcounter hkey => ?_, fun f digits hlen hdigits => ?_⟩
  · have haccepted : line.Accepted f [] := ⟨hav, (wf_iff _).mpr hfill, hcounter, hkey, by simp [hseed]⟩
    exact ⟨_, assembleLine_of_accepted (by rw [hseed]; rfl) haccepted,
      laidOut_toNat (getD_lt_of_wordList hcounter) 4, laidOut_toNat (getD_lt_of_wordList hkey) 2,
      laidOut_nil 8 16⟩
  · obtain ⟨bytes, hbytes⟩ := exists_seedBytesOf hlen hdigits
    have hcount : bytes.length = f.seedBytes := by
      have := length_of_seedBytesOf hbytes
      omega
    have haccepted : (AsmLine.seed digits).Accepted f bytes :=
      ⟨rfl, rfl, fun _ h => (by cases h), fun _ h => (by cases h), fun _ => hcount⟩
    refine ⟨_, assembleLine_of_accepted hbytes haccepted, fun i hn hi lo hhi hlo => ?_, fun i hn habove => ?_,
      laidOut_nil _ 4, laidOut_nil _ 2⟩
    · exact seedByte_toNat hbytes hhi hlo 16 hn
    · exact laidOut_beyond (by simpa [hcount] using habove) 8 16 hn

end Sys2Proof.Machine
end

section
/-! # The Threefry kernel: its parts, its schedule of rounds and its inverse (spec/40_threefry.md R80 to R87) -/

namespace Sys2Proof.Machine

/-! ## The parts -/

theorem pair64_ext {x y : Pair64} (h0 : x[0] = y[0]) (h1 : x[1] = y[1]) : x = y := by
  refine Vector.ext fun i hi => ?_
  obtain rfl | rfl : i = 0 ∨ i = 1 := by omega
  · exact h0
  · exact h1

/-- The third word makes the exclusive OR of the schedule the parity constant (R80, R82). -/
theorem threefryKeySchedule_xor (key : Pair64) :
    (threefryKeySchedule key)[0] ^^^ (threefryKeySchedule key)[1] ^^^ (threefryKeySchedule key)[2] = skeinParity := by
  change key[0] ^^^ key[1] ^^^ (skeinParity ^^^ key[0] ^^^ key[1]) = skeinParity
  rw [BitVec.xor_assoc skeinParity, BitVec.xor_comm skeinParity, ← BitVec.xor_assoc, BitVec.xor_self,
    BitVec.zero_xor]

theorem threefryInject_fst (x : Pair64) (ks : Vector (BitVec 64) 3) (k : Nat) :
    (threefryInject x ks k)[0] = x[0] + ks[k % 3]'(Nat.mod_lt _ (by decide)) := rfl

theorem threefryInject_snd (x : Pair64) (ks : Vector (BitVec 64) 3) (k : Nat) :
    (threefryInject x ks k)[1] = x[1] + ks[(k + 1) % 3]'(Nat.mod_lt _ (by decide)) + BitVec.ofNat 64 k := rfl

theorem threefryRound_fst (x : Pair64) (r : Nat) : (threefryRound x r)[0] = x[0] + x[1] := rfl

theorem threefryRound_snd (x : Pair64) (r : Nat) :
    (threefryRound x r)[1] = rotateLeft64 x[1] r ^^^ (threefryRound x r)[0] := rfl

/-- Settles O19: word by word, with `rotateLeft64_getLsbD` for the rotated word of a round. -/
theorem threefryPartsOnNumbersAndBits : Obligations.ThreefryPartsOnNumbersAndBits := by
  refine ⟨fun key => ⟨rfl, rfl, threefryKeySchedule_xor key⟩, fun x ks k _ => ⟨?_, ?_⟩,
    fun x r _ hr => ⟨?_, fun i hi => ?_⟩⟩
  · rw [threefryInject_fst, BitVec.toNat_add]
  · rw [threefryInject_snd, BitVec.toNat_add, BitVec.toNat_add, BitVec.toNat_ofNat, ← Nat.add_mod]
  · rw [threefryRound_fst, BitVec.toNat_add]
  · rw [threefryRound_snd, BitVec.getLsbD_xor, rotateLeft64_getLsbD x[1] hr hi]

/-! ## The parts undone -/

/-- A rotation by `r`, then one by `64 - r`, brings every bit back to its place. -/
theorem rotateLeft64_rotateLeft64 (x : BitVec 64) {r : Nat} (hpos : 0 < r) (hr : r < 64) :
    rotateLeft64 (rotateLeft64 x r) (64 - r) = x := by
  refine BitVec.eq_of_getLsbD_eq fun i hi => ?_
  have hback : ((i + r) % 64 + (64 - r)) % 64 = i := by omega
  calc (rotateLeft64 (rotateLeft64 x r) (64 - r)).getLsbD i
      = (rotateLeft64 (rotateLeft64 x r) (64 - r)).getLsbD (((i + r) % 64 + (64 - r)) % 64) := by rw [hback]
    _ = (rotateLeft64 x r).getLsbD ((i + r) % 64) :=
      rotateLeft64_getLsbD _ (by omega) (Nat.mod_lt _ (by decide))
    _ = x.getLsbD i := rotateLeft64_getLsbD x hr hi

/-- An injection undone: subtract what it added. -/
def threefryUninject (y : Pair64) (ks : Vector (BitVec 64) 3) (k : Nat) : Pair64 :=
  #v[y[0] - ks[k % 3]'(Nat.mod_lt _ (by decide)),
     y[1] - BitVec.ofNat 64 k - ks[(k + 1) % 3]'(Nat.mod_lt _ (by decide))]

/-- A round undone (R87): take the exclusive OR away, rotate back, subtract. -/
def threefryUnround (y : Pair64) (r : Nat) : Pair64 :=
  let x1 := rotateLeft64 (y[1] ^^^ y[0]) (64 - r)
  #v[y[0] - x1, x1]

theorem threefryInject_bijective (ks : Vector (BitVec 64) 3) (k : Nat) :
    Function.Bijective fun x => threefryInject x ks k := by
  refine Function.bijective_iff_has_inverse.mpr ⟨fun y => threefryUninject y ks k,
    fun x => pair64_ext ?_ ?_, fun y => pair64_ext ?_ ?_⟩ <;>
  simp [threefryUninject, threefryInject]

theorem threefryUnround_threefryRound (x : Pair64) {r : Nat} (hpos : 0 < r) (hr : r < 64) :
    threefryUnround (threefryRound x r) r = x := by
  have hword : rotateLeft64 ((threefryRound x r)[1] ^^^ (threefryRound x r)[0]) (64 - r) = x[1] := by
    rw [threefryRound_snd, BitVec.xor_assoc, BitVec.xor_self, BitVec.xor_zero,
      rotateLeft64_rotateLeft64 x[1] hpos hr]
  refine pair64_ext ?_ hword
  change (threefryRound x r)[0] - rotateLeft64 _ (64 - r) = x[0]
  rw [hword, threefryRound_fst, BitVec.add_sub_cancel]

theorem threefryRound_threefryUnround (y : Pair64) {r : Nat} (hpos : 0 < r) (hr : r < 64) :
    threefryRound (threefryUnround y r) r = y := by
  have hsum : (threefryRound (threefryUnround y r) r)[0] = y[0] := BitVec.sub_add_cancel _ _
  have hrot : rotateLeft64 (threefryUnround y r)[1] r = y[1] ^^^ y[0] := by
    have h := rotateLeft64_rotateLeft64 (y[1] ^^^ y[0]) (r := 64 - r) (by omega) (by omega)
    rwa [Nat.sub_sub_self hr.le] at h
  refine pair64_ext hsum ?_
  rw [threefryRound_snd, hsum, hrot, BitVec.xor_assoc, BitVec.xor_self, BitVec.xor_zero]

theorem threefryRound_bijective {r : Nat} (hpos : 0 < r) (hr : r < 64) :
    Function.Bijective fun x => threefryRound x r :=
  Function.bijective_iff_has_inverse.mpr ⟨fun y => threefryUnround y r,
    fun x => threefryUnround_threefryRound x hpos hr, fun y => threefryRound_threefryUnround y hpos hr⟩

theorem foldl_threefryRound_bijective {rs : List Nat} (hrs : ∀ r ∈ rs, 0 < r ∧ r < 64) :
    Function.Bijective fun x => rs.foldl threefryRound x := by
  induction rs with
  | nil => exact Function.bijective_id
  | cons r rs ih =>
    obtain ⟨hpos, hr⟩ := hrs r List.mem_cons_self
    exact (ih fun r' h => hrs r' (List.mem_cons_of_mem r h)).comp (threefryRound_bijective hpos hr)

theorem threefryGroupA_bijective : Function.Bijective threefryGroupA :=
  foldl_threefryRound_bijective (by decide)

theorem threefryGroupB_bijective : Function.Bijective threefryGroupB :=
  foldl_threefryRound_bijective (by decide)

/-- Settles O21: the kernel composes six injections and five groups of rounds, and each is a bijection. -/
theorem threefryMixIsBijective : Obligations.ThreefryMixIsBijective := by
  intro key
  have hinject := threefryInject_bijective (threefryKeySchedule key)
  have hmix := (hinject 5).comp <| threefryGroupA_bijective.comp <|
    (hinject 4).comp <| threefryGroupB_bijective.comp <|
    (hinject 3).comp <| threefryGroupA_bijective.comp <|
    (hinject 2).comp <| threefryGroupB_bijective.comp <|
    (hinject 1).comp <| threefryGroupA_bijective.comp (hinject 0)
  simpa only [threefryMix, Function.comp_def] using hmix

/-! ## The schedule as twenty rounds -/

/-- Round `r` of R86's loop form: a round with `ROT[r % 8]`, and after every fourth one an injection. -/
def threefryLoopRound (ks : Vector (BitVec 64) 3) (x : Pair64) (r : Nat) : Pair64 :=
  let y := threefryRound x (([16, 42, 12, 31, 16, 32, 24, 21] : List Nat).getD (r % 8) 0)
  if r % 4 = 3 then threefryInject y ks (r / 4 + 1) else y

/-- Rounds `8j` to `8j + 3` of the loop are a group A and injection `2j + 1`. -/
theorem foldl_threefryLoopRound_groupA (ks : Vector (BitVec 64) 3) (x : Pair64) (j : Nat) :
    (List.range' (8 * j) 4).foldl (threefryLoopRound ks) x = threefryInject (threefryGroupA x) ks (2 * j + 1) := by
  have hrange : List.range' (8 * j) 4 = [8 * j, 8 * j + 1, 8 * j + 2, 8 * j + 3] := rfl
  have hdiv : (8 * j + 3) / 4 = 2 * j := by omega
  have hmod : 8 * j % 4 = 0 ∧ (8 * j + 1) % 4 = 1 ∧ (8 * j + 2) % 4 = 2 ∧ (8 * j + 3) % 4 = 3 := by omega
  simp [hrange, threefryLoopRound, threefryGroupA, rotationsA, hdiv, hmod]

/-- Rounds `8j + 4` to `8j + 7` of the loop are a group B and injection `2j + 2`. -/
theorem foldl_threefryLoopRound_groupB (ks : Vector (BitVec 64) 3) (x : Pair64) (j : Nat) :
    (List.range' (8 * j + 4) 4).foldl (threefryLoopRound ks) x = threefryInject (threefryGroupB x) ks (2 * j + 2) := by
  have hrange : List.range' (8 * j + 4) 4 = [8 * j + 4, 8 * j + 5, 8 * j + 6, 8 * j + 7] := rfl
  have hdiv : (8 * j + 7) / 4 = 2 * j + 1 := by omega
  have hmod : (8 * j + 4) % 4 = 0 ∧ (8 * j + 5) % 4 = 1 ∧ (8 * j + 6) % 4 = 2 ∧ (8 * j + 7) % 4 = 3 := by omega
  simp [hrange, threefryLoopRound, threefryGroupB, rotationsB, hdiv, hmod]

/-- Settles O20: the twenty rounds are five groups of four, A and B in turn, each ending in its injection. -/
theorem threefryScheduleAsTwentyRounds : Obligations.ThreefryScheduleAsTwentyRounds := by
  intro counter key
  have hrounds : List.range 20 = List.range' (8 * 0) 4 ++ List.range' (8 * 0 + 4) 4 ++ List.range' (8 * 1) 4
      ++ List.range' (8 * 1 + 4) 4 ++ List.range' (8 * 2) 4 := by decide
  change threefryMix counter key = (List.range 20).foldl (threefryLoopRound (threefryKeySchedule key)) _
  simp only [hrounds, List.foldl_append, foldl_threefryLoopRound_groupA, foldl_threefryLoopRound_groupB]
  rfl

end Sys2Proof.Machine
end

section
/-! # The Philox kernels: their rounds, their round keys and their inverses, and the commands ROUND and BUMP
(spec/41_philox.md R100 to R109) -/

namespace Sys2Proof.Machine

/-! ## The low product by an odd number undone -/

section
variable {w : Nat}

theorem mulLow_eq_mul (a b : BitVec w) : mulLow a b = a * b :=
  BitVec.eq_of_toNat_eq (by rw [mulLow_toNat, BitVec.toNat_mul])

@[simp] theorem mulHigh_zero (a : BitVec w) : mulHigh a 0#w = 0#w :=
  BitVec.eq_of_toNat_eq (by simp [mulHigh_toNat])

@[simp] theorem mulLow_zero (a : BitVec w) : mulLow a 0#w = 0#w := by simp [mulLow_eq_mul]

/-- Every odd word has an inverse modulo 2^w. -/
theorem exists_mul_eq_one_of_odd {a : BitVec w} (ha : Odd a.toNat) : ∃ inv : BitVec w, a * inv = 1 := by
  obtain ⟨m, -, hm⟩ := Nat.exists_mul_mod_eq_of_coprime 1 (ha.coprime_two_right.pow_right w)
    (Nat.two_pow_pos w).ne'
  refine ⟨BitVec.ofNat w m, BitVec.eq_of_toNat_eq ?_⟩
  simp [hm, BitVec.toNat_mul]

theorem mul_mulLow_of_inverse {a inv : BitVec w} (h : a * inv = 1) (x : BitVec w) : inv * mulLow a x = x := by
  rw [mulLow_eq_mul, ← mul_assoc, mul_comm inv, h, one_mul]

theorem mulLow_mul_of_inverse {a inv : BitVec w} (h : a * inv = 1) (y : BitVec w) : mulLow a (inv * y) = y := by
  rw [mulLow_eq_mul, ← mul_assoc, h, one_mul]

/-- The exclusive ORs that a round makes on a word, made again, give the word back. -/
theorem xor_xor_cancel_both (h x k : BitVec w) : h ^^^ (h ^^^ x ^^^ k) ^^^ k = x := by
  rw [← BitVec.xor_assoc, ← BitVec.xor_assoc, BitVec.xor_self, BitVec.zero_xor, BitVec.xor_assoc,
    BitVec.xor_self, BitVec.xor_zero]
end

/-! ## A round undone -/

section
variable {w : Nat}

/-- A 2-word round undone (R107), by an inverse of its multiplier. -/
def philoxUnround2 (pm inv : Vector (BitVec w) 1) (y : Vector (BitVec w) 2) (k : Vector (BitVec w) 1) :
    Vector (BitVec w) 2 :=
  let x0 := inv[0] * y[1]
  #v[x0, mulHigh pm[0] x0 ^^^ y[0] ^^^ k[0]]

/-- A 4-word round undone (R107), by inverses of its multipliers. -/
def philoxUnround4 (pm inv : Vector (BitVec w) 2) (y : Vector (BitVec w) 4) (k : Vector (BitVec w) 2) :
    Vector (BitVec w) 4 :=
  let x0 := inv[0] * y[3]
  let x2 := inv[1] * y[1]
  #v[x0, mulHigh pm[1] x2 ^^^ y[0] ^^^ k[0], x2, mulHigh pm[0] x0 ^^^ y[2] ^^^ k[1]]

theorem philoxRound2_bijective {pm : Vector (BitVec w) 1} (h0 : Odd pm[0].toNat) (k : Vector (BitVec w) 1) :
    Function.Bijective fun x => philoxRound2 pm x k := by
  obtain ⟨inv, hinv⟩ := exists_mul_eq_one_of_odd h0
  refine Function.bijective_iff_has_inverse.mpr ⟨fun y => philoxUnround2 pm #v[inv] y k, fun x => ?_, fun y => ?_⟩
  all_goals
    refine Vector.ext fun i hi => ?_
    interval_cases i <;>
    simp [philoxUnround2, philoxRound2, mul_mulLow_of_inverse hinv, mulLow_mul_of_inverse hinv, xor_xor_cancel_both]

theorem philoxRound4_bijective {pm : Vector (BitVec w) 2} (h0 : Odd pm[0].toNat) (h1 : Odd pm[1].toNat)
    (k : Vector (BitVec w) 2) : Function.Bijective fun x => philoxRound4 pm x k := by
  obtain ⟨inv0, hinv0⟩ := exists_mul_eq_one_of_odd h0
  obtain ⟨inv1, hinv1⟩ := exists_mul_eq_one_of_odd h1
  refine Function.bijective_iff_has_inverse.mpr
    ⟨fun y => philoxUnround4 pm #v[inv0, inv1] y k, fun x => ?_, fun y => ?_⟩
  all_goals
    refine Vector.ext fun i hi => ?_
    interval_cases i <;>
    simp [philoxUnround4, philoxRound4, mul_mulLow_of_inverse, mulLow_mul_of_inverse, hinv0, hinv1, xor_xor_cancel_both]
end

theorem multipliers_odd (v : Philox) : ∀ j (_ : j < v.keyWords), Odd (multipliers v)[j].toNat := by
  cases v <;> decide

theorem philoxRound_bijective (v : Philox) (k : Key (.philox v)) : Function.Bijective fun x => philoxRound v x k := by
  cases v with
  | p2x32 | p2x64 => exact philoxRound2_bijective (multipliers_odd _ 0 (by decide)) k
  | p4x32 | p4x64 => exact philoxRound4_bijective (multipliers_odd _ 0 (by decide)) (multipliers_odd _ 1 (by decide)) k

theorem philoxLaterRounds_bijective (v : Philox) (n : Nat) (k : Key (.philox v)) :
    Function.Bijective fun x => philoxLaterRounds v n x k := by
  induction n generalizing k with
  | zero => exact Function.bijective_id
  | succ n ih => exact (ih (philoxBump v k)).comp (philoxRound_bijective v (philoxBump v k))

/-- Settles O22: the kernel composes a round and nine later rounds, and each round is undone by the inverses of its
odd multipliers. -/
theorem philoxRoundAndMixAreBijective : Obligations.PhiloxRoundAndMixAreBijective :=
  fun v key => ⟨philoxRound_bijective v key,
    (philoxLaterRounds_bijective v 9 key).comp (philoxRound_bijective v key)⟩

/-! ## The round keys -/

@[simp] theorem philoxBump_getElem (v : Philox) (k : Key (.philox v)) (j : Nat) (h : j < v.keyWords) :
    (philoxBump v k)[j] = k[j] + (weylIncrements v)[j] := by
  simp [philoxBump]

/-- The key of round `r`: the key plus `r` times the Weyl increment in each word (R106). -/
def philoxRoundKey (v : Philox) (key : Key (.philox v)) (r : Nat) : Key (.philox v) :=
  Vector.ofFn fun j => key[j.val] + BitVec.ofNat v.width r * (weylIncrements v)[j.val]

@[simp] theorem philoxRoundKey_getElem (v : Philox) (key : Key (.philox v)) (r j : Nat) (h : j < v.keyWords) :
    (philoxRoundKey v key r)[j] = key[j] + BitVec.ofNat v.width r * (weylIncrements v)[j] := by
  simp [philoxRoundKey]

theorem philoxRoundKey_zero (v : Philox) (key : Key (.philox v)) : philoxRoundKey v key 0 = key := by
  refine Vector.ext fun j hj => ?_
  rw [philoxRoundKey_getElem, BitVec.zero_mul, BitVec.add_zero]

theorem philoxBump_philoxRoundKey (v : Philox) (key : Key (.philox v)) (r : Nat) :
    philoxBump v (philoxRoundKey v key r) = philoxRoundKey v key (r + 1) := by
  refine Vector.ext fun j hj => ?_
  rw [philoxBump_getElem, philoxRoundKey_getElem, philoxRoundKey_getElem, BitVec.ofNat_add, BitVec.add_mul,
    BitVec.one_mul, BitVec.add_assoc]

/-- Round `r` of the kernel, under its round key (R106). -/
def philoxKeyedRound (v : Philox) (key : Key (.philox v)) (x : Block (.philox v)) (r : Nat) : Block (.philox v) :=
  philoxRound v x (philoxRoundKey v key r)

/-- The `n` rounds after round `r` are rounds `r + 1` to `r + n`. -/
theorem philoxLaterRounds_eq_foldl (v : Philox) (key : Key (.philox v)) (n r : Nat) (x : Block (.philox v)) :
    philoxLaterRounds v n x (philoxRoundKey v key r) =
      (List.range' (r + 1) n).foldl (philoxKeyedRound v key) x := by
  induction n generalizing r x with
  | zero => rfl
  | succ n ih =>
    rw [philoxLaterRounds, philoxBump_philoxRoundKey, ih, List.range'_succ, List.foldl_cons, philoxKeyedRound]

/-- Settles O23: round 0 has the key itself, and `philoxLaterRounds_eq_foldl` gives the other nine. -/
theorem philoxRoundKeysAreKeyPlusMultiples : Obligations.PhiloxRoundKeysAreKeyPlusMultiples := by
  intro v counter key
  calc philoxMix v counter key
      = philoxLaterRounds v 9 (philoxKeyedRound v key counter 0) (philoxRoundKey v key 0) := by
        rw [philoxKeyedRound, philoxRoundKey_zero]; rfl
    _ = (List.range' 1 9).foldl (philoxKeyedRound v key) (philoxKeyedRound v key counter 0) :=
        philoxLaterRounds_eq_foldl v key 9 0 _
    _ = (List.range 10).foldl (philoxKeyedRound v key) counter := rfl

/-! ## The zero counter -/

theorem philoxRound2_zero {w : Nat} (pm k : Vector (BitVec w) 1) : philoxRound2 pm #v[0, 0] k = #v[k[0], 0] := by
  simp [philoxRound2]

theorem philoxRound4_zero {w : Nat} (pm k : Vector (BitVec w) 2) :
    philoxRound4 pm #v[0, 0, 0, 0] k = #v[k[0], 0, k[1], 0] := by
  simp [philoxRound4]

/-- Settles O32: both halves of a product with 0 are 0, whatever the multiplier. -/
theorem roundOfTheZeroCounterIsTheKey : Obligations.RoundOfTheZeroCounterIsTheKey :=
  ⟨philoxRound2_zero _, philoxRound2_zero _, philoxRound4_zero _, philoxRound4_zero _⟩

/-! ## The commands -/

/-- A command that the family lacks answers UNSUPPORTED (R68, R191). -/
theorem answerOf_of_unavailable {i : Instr} {f : Family} (r : Regs f) (o : Operands f) (h : available i f = false) :
    answerOf i f r o = raise .unsupported r := by
  cases i with
  | nop | seed | gen | next | fill | mix | rdstate | rdbuf => cases h
  | setkey =>
    cases f with
    | tf2x64 => cases h
    | philox v => rfl
  | setctr | round | bump =>
    cases f with
    | tf2x64 => rfl
    | philox v => cases h

theorem exec_of_unavailable {i : Instr} {s : State} (h : available i s.family = false) :
    exec i s = .next { s with responses := s.responses ++ [Response.blank s.family .unsupported] } := by
  rw [exec_eq_complete, answerOf_of_unavailable s.regs s.operands h, complete_eq, raise_regs, raise_response]

/-- Settles O31: in each family D's elements are those of the round, whose operand words are A's and K's, and the
statement's multipliers are the family's. -/
theorem roundEvaluatesOneRound : Obligations.RoundEvaluatesOneRound := by
  refine ⟨fun v r o p x => ⟨_, exec_mk .round r o p x, ?_⟩, fun s hf => exec_of_unavailable (by rw [hf]; rfl)⟩
  cases v with
  | p2x32 | p2x64 =>
    refine ⟨?_, fun h => (by cases h)⟩
    rintro - _ ⟨⟩
    exact ⟨rfl, rfl, rfl, rfl⟩
  | p4x32 | p4x64 =>
    refine ⟨fun h => (by cases h), ?_⟩
    rintro - _ _ ⟨⟩ ⟨⟩
    exact ⟨rfl, rfl, rfl, rfl⟩

/-- Settles O33: a word sum is taken modulo 2^W, and `keyResult` puts 0 above the key. -/
theorem bumpAddsTheWeylIncrements : Obligations.BumpAddsTheWeylIncrements := by
  refine ⟨fun v r o p x => ⟨_, exec_mk .bump r o p x, fun j hj => ?_⟩,
    fun s hf => exec_of_unavailable (by rw [hf]; rfl)⟩
  rw [keyResult_getElem]
  split
  · rw [philoxBump_getElem, keyOperand_getElem, BitVec.toNat_add]
  · rfl

end Sys2Proof.Machine
end

section
/-! # The block core: the counter advance, and the commands SEED, SETKEY, SETCTR, GEN and MIX
(spec/42_block_core.md R130 to R137) -/

namespace Sys2Proof.Machine

/-! ## The counter advance -/

theorem advance_threefry_fst (ctr : Pair64) : (advance .tf2x64 ctr)[0] = ctr[0] + 1 := rfl

/-- Word 0 wraps when it is all ones. -/
theorem advance_threefry_snd (ctr : Pair64) :
    (advance .tf2x64 ctr)[1] = if ctr[0] = 0xFFFFFFFFFFFFFFFF then ctr[1] + 1 else ctr[1] := by
  have hwraps : ctr[0] + 1 = 0 ↔ ctr[0] = 0xFFFFFFFFFFFFFFFF := eq_neg_iff_add_eq_zero.symm
  change (if ctr[0] + 1 = 0 then ctr[1] + 1 else ctr[1]) = _
  simp only [hwraps]

theorem counterValue_pair64 (ctr : Pair64) : counterValue ctr = ctr[0].toNat + 2 ^ 64 * ctr[1].toNat := by
  have hlist : ctr.toList = [ctr[0], ctr[1]] :=
    congrArg Vector.toList (pair64_ext (x := ctr) (y := #v[ctr[0], ctr[1]]) rfl rfl)
  simp [counterValue, hlist, wordsValue]

theorem counterValue_lt (ctr : Pair64) : counterValue ctr < 2 ^ 128 := by
  have h0 := ctr[0].isLt
  have h1 := ctr[1].isLt
  rw [counterValue_pair64]
  omega

/-- The words of a counter are the base-2^64 digits of its integer. -/
theorem counterValue_injective {x y : Pair64} (h : counterValue x = counterValue y) : x = y := by
  have hx := x[0].isLt
  have hy := y[0].isLt
  rw [counterValue_pair64, counterValue_pair64] at h
  exact pair64_ext (BitVec.eq_of_toNat_eq (by omega)) (BitVec.eq_of_toNat_eq (by omega))

/-- The Threefry step is +1 modulo 2^128 (R131): word 0 carries into word 1, and word 1 wraps. -/
theorem counterValue_advance_threefry (ctr : Pair64) :
    counterValue (advance .tf2x64 ctr) = (counterValue ctr + 1) % 2 ^ 128 := by
  have h0 := ctr[0].isLt
  have h1 := ctr[1].isLt
  have hone : (1 : BitVec 64).toNat = 1 := rfl
  rw [counterValue_pair64, counterValue_pair64, advance_threefry_fst, advance_threefry_snd, BitVec.toNat_add]
  by_cases hwrap : ctr[0] = 0xFFFFFFFFFFFFFFFF
  · have hones : ctr[0].toNat = 2 ^ 64 - 1 := congrArg BitVec.toNat hwrap
    rw [if_pos hwrap, BitVec.toNat_add, hone]
    omega
  · have hones : ctr[0].toNat ≠ 2 ^ 64 - 1 := fun h => hwrap (BitVec.eq_of_toNat_eq h)
    rw [if_neg hwrap, hone]
    omega

theorem advance_philox (v : Philox) (ctr : Block (.philox v)) : advance (.philox v) ctr = ctr :=
  advance_of_not_autoInc rfl ctr

/-- Settles O24: the carry out of word 0, the number of the two words together, and the Philox identity. -/
theorem advanceIsIncrementOrIdentity : Obligations.AdvanceIsIncrementOrIdentity :=
  ⟨fun ctr => ⟨advance_threefry_fst ctr, advance_threefry_snd ctr, counterValue_advance_threefry ctr⟩,
    advance_philox⟩

theorem counterValue_iterate_advance_threefry (ctr : Pair64) (n : Nat) :
    counterValue ((advance .tf2x64)^[n] ctr) = (counterValue ctr + n) % 2 ^ 128 := by
  induction n with
  | zero => exact (Nat.mod_eq_of_lt (counterValue_lt ctr)).symm
  | succ n ih =>
    rw [Function.iterate_succ_apply', counterValue_advance_threefry, ih]
    omega

/-- `n` advances reach a counter exactly when `n` makes up the difference modulo 2^128. -/
theorem iterate_advance_threefry_eq_iff (ctr other : Pair64) (n : Nat) :
    (advance .tf2x64)^[n] ctr = other ↔ (counterValue ctr + n) % 2 ^ 128 = counterValue other := by
  rw [← counterValue_iterate_advance_threefry]
  exact ⟨congrArg counterValue, counterValue_injective⟩

/-- Settles O25: advances are additions modulo 2^128 on the counter's number, and a Philox counter is a fixed
point. -/
theorem threefryCounterHasFullPeriod : Obligations.ThreefryCounterHasFullPeriod := by
  refine ⟨fun ctr n => ?_, fun ctr other => ?_, fun v ctr n => Function.iterate_fixed (advance_philox v ctr) n⟩
  · have hlt := counterValue_lt ctr
    rw [iterate_advance_threefry_eq_iff]
    omega
  · have hctr := counterValue_lt ctr
    have hother := counterValue_lt other
    refine ⟨(counterValue other + 2 ^ 128 - counterValue ctr) % 2 ^ 128, Nat.mod_lt _ (by decide), ?_⟩
    rw [iterate_advance_threefry_eq_iff]
    omega

/-! ## The block core's commands -/

/-- A command completes with the registers and the response of its answer. -/
theorem exec_of_answerOf {i : Instr} {s : State} {r : Regs s.family} {response : Response s.family}
    (h : answerOf i s.family s.regs s.operands = (r, response)) :
    exec i s = .next { s with regs := r, responses := s.responses ++ [response] } := by
  rw [exec_eq_complete, h, complete_eq]

/-- A word of a family made of WB bytes has those bytes (R10, R4). -/
theorem leBytes_leWord_width {f : Family} {bs : List Byte} (h : bs.length = f.wordBytes) :
    leBytes (leWord f.width bs) = bs :=
  wordBytes_mul_eight f ▸ leBytes_leWord h

/-- Byte `i` of key word `j` is seed byte `j * WB + i` (R41). -/
theorem seedKey_byte {f : Family} (o : Operands f) {j i : Nat} (hj : j < f.keyWords) (hi : i < f.wordBytes) :
    o.s.toList[j * f.wordBytes + i]? = some ((seedKey o)[j].extractLsb' (8 * i) 8) := by
  have hfits : j * f.wordBytes + f.wordBytes ≤ 16 :=
    calc j * f.wordBytes + f.wordBytes
        = (j + 1) * f.wordBytes := (Nat.succ_mul j _).symm
      _ ≤ f.seedBytes := Nat.mul_le_mul_right _ hj
      _ ≤ 16 := seedBytes_le f
  have hlen : ((o.s.toList.drop (j * f.wordBytes)).take f.wordBytes).length = f.wordBytes := by
    simp only [List.length_take, List.length_drop, Vector.length_toList]
    omega
  rw [seedKey_getElem, ← leBytes_getElem? _ i hi, leBytes_leWord_width hlen, List.getElem?_take_of_lt hi,
    List.getElem?_drop]

/-- Settles O26: SEED's registers are those of `seedAnswer`, with the key read byte by byte. -/
theorem seedLoadsTheKeyAndRestarts : Obligations.SeedLoadsTheKeyAndRestarts := by
  intro s
  exact ⟨(seedAnswer s.family s.operands).1, exec_of_answerOf rfl, fun _ hj _ hi => seedKey_byte s.operands hj hi,
    fun _ _ => Vector.getElem_replicate _, fun _ _ => Vector.getElem_replicate _, rfl, rfl⟩

/-- Settles O27: the key operand of Threefry is K[0], K[1], and the two checks answer without effect. -/
theorem setkeyWritesTheKeyAlone : Obligations.SetkeyWritesTheKeyAlone := by
  refine ⟨fun r o p x => ?_, fun s hf => exec_of_unavailable (by simpa [available] using hf)⟩
  split
  case isTrue hv =>
    rw [← keyOperand_threefry]
    exact exec_of_answerOf (requireSeeded_of_valid hv _)
  case isFalse hv => exact exec_of_unseeded (Bool.eq_false_of_not_eq_true hv) rfl rfl

theorem answerOf_setctr_of_valid {f : Family} {r : Regs f} (o : Operands f) (hf : f ≠ .tf2x64)
    (hv : r.valid = true) :
    answerOf .setctr f r o = ({ r with ctr := counterOperand o }, Response.blank f .ok) := by
  cases f with
  | tf2x64 => contradiction
  | philox v => exact requireSeeded_of_valid hv _

/-- Settles O28: the counter operand is A[0..N-1], and the two checks answer without effect. -/
theorem setctrWritesTheCounterAlone : Obligations.SetctrWritesTheCounterAlone := by
  refine ⟨fun s hf hv => ?_, fun s hf hv => exec_of_unseeded hv rfl (by simpa [available] using hf),
    fun s hf => exec_of_unavailable (by simp [available, hf])⟩
  exact ⟨_, exec_of_answerOf (answerOf_setctr_of_valid s.operands hf hv), counterOperand_getElem s.operands⟩

/-- Settles O29: D is `blockResult` of the current counter's block. -/
theorem genAnswersTheBlockAndAdvances : Obligations.GenAnswersTheBlockAndAdvances :=
  ⟨fun _ hv => ⟨_, exec_of_answerOf (requireSeeded_of_valid hv _), blockResult_getElem _⟩,
    fun _ hv => exec_of_unseeded hv rfl rfl⟩

/-- Settles O30: the operand elements fix the kernel's counter and key. -/
theorem mixEvaluatesTheKernel : Obligations.MixEvaluatesTheKernel := by
  refine ⟨fun s counter key hcounter hkey => ?_, fun _ _ => rfl, fun _ _ _ => rfl⟩
  have hcounterOperand : counterOperand s.operands = counter :=
    Vector.ext fun i hi => (counterOperand_getElem s.operands i hi).trans (hcounter i hi).symm
  have hkeyOperand : keyOperand s.operands = key :=
    Vector.ext fun j hj => (keyOperand_getElem s.operands j hj).trans (hkey j hj).symm
  rw [← hcounterOperand, ← hkeyOperand]
  exact ⟨_, exec_of_answerOf (i := .mix) rfl, blockResult_getElem _⟩

/-! ## A run after SEED -/

/-- The earlier responses do not shape a step: with others in their place it gives the same registers, operand
fields and queue, and the same responses since (R28). -/
theorem step_independent_of_responses {f : Family} {r : Regs f} {o : Operands f} {p : List (HostAction f)}
    {x : List (Response f)} {t : State} (h : step ⟨f, r, o, p, x⟩ = .next t) :
    ∃ r' o' p' since, t = ⟨f, r', o', p', x ++ since⟩ ∧
      ∀ y, step ⟨f, r, o, p, y⟩ = .next ⟨f, r', o', p', y ++ since⟩ := by
  match p with
  | [] =>
    cases (step_idle rfl).symm.trans h
    exact ⟨r, o, [], [], by simp, fun y => by rw [List.append_nil]; exact step_idle rfl⟩
  | .reset :: p =>
    cases (step_reset rfl).symm.trans h
    exact ⟨Regs.reset f, Operands.zero f, p, [], by simp [resetBlock],
      fun y => by rw [List.append_nil]; exact step_reset rfl⟩
  | .overlapping _ _ :: p => cases (step_overlapping rfl).symm.trans h
  | .command q :: p =>
    cases (step_command_mk r o q p x).symm.trans h
    exact ⟨_, _, _, _, rfl, step_command_mk r o q p⟩

/-- `step_independent_of_responses` for a run. -/
theorem run_independent_of_responses {f : Family} {k : Nat} {r : Regs f} {o : Operands f} {p : List (HostAction f)}
    {x : List (Response f)} {t : State} (h : run k ⟨f, r, o, p, x⟩ = .next t) :
    ∃ r' o' p' since, t = ⟨f, r', o', p', x ++ since⟩ ∧
      ∀ y, run k ⟨f, r, o, p, y⟩ = .next ⟨f, r', o', p', y ++ since⟩ := by
  induction k generalizing r o p x with
  | zero =>
    cases h
    exact ⟨r, o, p, [], by simp, by simp⟩
  | succ k ih =>
    cases hs : step ⟨f, r, o, p, x⟩ with
    | fault why => rw [run_succ_of_fault hs] at h; cases h
    | refused why => rw [run_succ_of_refused hs] at h; cases h
    | next u =>
      rw [run_succ_of_next hs] at h
      obtain ⟨r₁, o₁, p₁, first, rfl, hstep⟩ := step_independent_of_responses hs
      obtain ⟨r₂, o₂, p₂, later, rfl, hrun⟩ := ih h
      refine ⟨r₂, o₂, p₂, first ++ later, by rw [List.append_assoc], fun y => ?_⟩
      rw [run_succ_of_next (hstep y), hrun, List.append_assoc]

/-- SEED's step writes registers that depend on its own operand fields alone (R134). -/
theorem step_seed_mk {f : Family} (r : Regs f) (o seedOps : Operands f) (p : List (HostAction f))
    (x : List (Response f)) :
    step ⟨f, r, o, .command ⟨encode .seed, seedOps⟩ :: p, x⟩ =
      .next ⟨f, (seedAnswer f seedOps).1, seedOps, p, x ++ [(seedAnswer f seedOps).2]⟩ :=
  (step_decoded rfl (decode_encode rfl)).trans (exec_mk .seed r seedOps p x)

/-- Settles O44: SEED leaves the two blocks with nothing but their earlier responses to tell them apart. -/
theorem seedErasesHistory : Obligations.SeedErasesHistory := by
  intro f r1 r2 o1 o2 seedOps acts x1 x2 k t h
  rw [run_succ_of_next (step_seed_mk r1 o1 seedOps acts x1)] at h
  obtain ⟨r, o, p, since, rfl, hrun⟩ := run_independent_of_responses h
  refine ⟨r, o, p, (seedAnswer f seedOps).2 :: since, by simp, ?_⟩
  rw [run_succ_of_next (step_seed_mk r2 o2 seedOps acts x2), hrun]
  simp

end Sys2Proof.Machine
end

section
/-! # The streaming adapter: NEXT, FILL, and the stream that a SEED begins (spec/43_streaming.md R160 to R164) -/

namespace Sys2Proof.Machine

/-! ## NEXT and FILL -/

theorem nextAnswer_of_valid {f : Family} {r : Regs f} (hv : r.valid = true) :
    nextAnswer f r = ((pull r).2, { Response.blank f .ok with d := #v[(pull r).1, 0, 0, 0] }) :=
  requireSeeded_of_valid hv _

theorem fillAnswer_of_valid {f : Family} {r : Regs f} (hv : r.valid = true) (n : Nat) :
    fillAnswer f n r =
      ((takeWords (fillWords f n) r).2,
       { Response.blank f .ok with bytes := ((takeWords (fillWords f n) r).1.flatMap leBytes).take n }) :=
  requireSeeded_of_valid hv _

/-- Settles O34: PULL takes the word at the cursor, of the buffered block or of the block a refill brings. -/
theorem nextServesTheNextWord : Obligations.NextServesTheNextWord := by
  refine ⟨fun s hcur hv => exec_of_answerOf ((nextAnswer_of_valid hv).trans ?_),
    fun s hcur hv => exec_of_answerOf ((nextAnswer_of_valid hv).trans ?_), fun s hv => exec_of_unseeded hv rfl rfl⟩
  · rw [pull_buffered s.regs hcur]
    rfl
  · rw [pull_exhausted s.regs hcur]
    rfl

/-- The words that FILL takes hold its bytes: byte `m` is in word `m / WB`. -/
theorem div_wordBytes_lt_fillWords {f : Family} {m n : Nat} (h : m < n) : m / f.wordBytes < fillWords f n :=
  (Nat.div_lt_iff_lt_mul (wordBytes_pos f)).mpr (Nat.lt_of_lt_of_le h (le_fillWords_mul f n))

theorem fillBytes_length {f : Family} (n : Nat) (r : Regs f) :
    (((takeWords (fillWords f n) r).1.flatMap leBytes).take n).length = n := by
  rw [List.length_take, flatMap_length leBytes f.wordBytes leBytes_word_length, takeWords_length,
    Nat.min_eq_left (le_fillWords_mul f n)]

/-- Byte `m` of a fill is byte `m mod WB` of word `m / WB` (R42). -/
theorem fillBytes_getElem? {f : Family} {m n : Nat} (hm : m < n) (r : Regs f) :
    (((takeWords (fillWords f n) r).1.flatMap leBytes).take n)[m]? =
      some ((pull ((fun r => (pull r).2)^[m / f.wordBytes] r)).1.extractLsb' (8 * (m % f.wordBytes)) 8) := by
  rw [List.getElem?_take_of_lt hm, flatMap_getElem? leBytes f.wordBytes (wordBytes_pos f) leBytes_word_length,
    takeWords_getElem? _ r _ (div_wordBytes_lt_fillWords hm), Option.bind_some]
  exact leBytes_getElem? _ _ (Nat.mod_lt _ (wordBytes_pos f))

/-- Settles O35: FILL's words are iterated PULLs, and its bytes are read off their packing. -/
theorem fillServesTheBytesOfTheNextWords : Obligations.FillServesTheBytesOfTheNextWords := by
  refine ⟨fun s n hv => ?_, fun s n hv => exec_of_unseeded hv rfl rfl⟩
  refine ⟨_, exec_of_answerOf ((fillAnswer_of_valid hv n).trans ?_), fillBytes_length n s.regs,
    fun m hm => fillBytes_getElem? hm s.regs⟩
  rw [takeWords_regs]
  rfl

/-! ## The stream of a family

One invariant serves R163 and R164: the two orders differ only in what ADVANCE does to the zero counter. -/

/-- The counter of refill `q` after a SEED, counting from 0: the zero counter advanced `q` times (R131, R134). -/
def refillCounter (f : Family) (q : Nat) : Block f := (advance f)^[q] (Vector.replicate f.words 0)

/-- Word `p` of the stream that a SEED begins: word `p mod N` of the block of refill `p / N`. -/
def streamWord {f : Family} (key : Key f) (p : Nat) : Word f :=
  (kernel f (refillCounter f (p / f.words)) key)[p % f.words]'(Nat.mod_lt _ f.words_pos)

theorem advance_refillCounter (f : Family) (q : Nat) : advance f (refillCounter f q) = refillCounter f (q + 1) :=
  (Function.iterate_succ_apply' _ _ _).symm

/-- A block holds N consecutive words of the stream. -/
theorem kernel_refillCounter_getElem {f : Family} (key : Key f) (q i : Nat) (hi : i < f.words) :
    (kernel f (refillCounter f q) key)[i] = streamWord key (q * f.words + i) := by
  have hdiv : (q * f.words + i) / f.words = q := by
    rw [Nat.mul_comm, Nat.mul_add_div f.words_pos, Nat.div_eq_of_lt hi, Nat.add_zero]
  have hmod : (q * f.words + i) % f.words = i := Nat.mul_add_mod_of_lt hi
  simp only [streamWord, hdiv, hmod]

/-- Registers that hold the stream of `key` from word `p` on: the words at CUR and above in BUF are the next ones of
the stream, and CTR is the counter of the block after them. -/
structure HoldsStream {f : Family} (key : Key f) (p : Nat) (r : Regs f) : Prop where
  valid_eq : r.valid = true
  key_eq : r.key = key
  /-- After `q` refills, `q * N` words have been generated: `p` of them taken and `N - CUR` still buffered. -/
  ctr_eq : ∃ q, q * f.words + r.cur.val = p + f.words ∧ r.ctr = refillCounter f q
  buf_eq : ∀ i (_ : r.cur.val + i < f.words), r.buf[r.cur.val + i] = streamWord key (p + i)

/-- The invariant of a stream, `p` words taken: between commands CUR is never 0, since a refill is followed by the
take that asked for it. -/
structure OnStream {f : Family} (key : Key f) (p : Nat) (r : Regs f) : Prop extends HoldsStream key p r where
  cur_pos : 0 < r.cur.val

section
variable {f : Family} {key : Key f} {p : Nat} {r : Regs f}

theorem seedAnswer_onStream (o : Operands f) : OnStream (seedKey o) 0 (seedAnswer f o).1 where
  valid_eq := rfl
  key_eq := rfl
  ctr_eq := ⟨0, by simp [seedAnswer], rfl⟩
  buf_eq i h := absurd h (by simp [seedAnswer])
  cur_pos := f.words_pos

theorem HoldsStream.refill (h : HoldsStream key p r) (hcur : r.cur.val = f.words) :
    HoldsStream key p (refill r) := by
  obtain ⟨q, hq, hctr⟩ := h.ctr_eq
  have hp : p = q * f.words := by omega
  exact {
    valid_eq := h.valid_eq
    key_eq := h.key_eq
    ctr_eq := ⟨q + 1, by simp [hp, Nat.succ_mul], by rw [refill_ctr, hctr, advance_refillCounter]⟩
    buf_eq := fun i _ => by simp [hctr, h.key_eq, hp, kernel_refillCounter_getElem] }

theorem HoldsStream.takeBuffered (h : HoldsStream key p r) (hcur : r.cur.val < f.words) :
    (takeBuffered r hcur).1 = streamWord key p ∧ OnStream key (p + 1) (takeBuffered r hcur).2 := by
  obtain ⟨q, hq, hctr⟩ := h.ctr_eq
  refine ⟨h.buf_eq 0 hcur, ?_⟩
  exact {
    valid_eq := h.valid_eq
    key_eq := h.key_eq
    ctr_eq := ⟨q, by rw [takeBuffered_cur]; omega, hctr⟩
    buf_eq := fun i hi => by
      have hnext := h.buf_eq (i + 1) (by rw [takeBuffered_cur] at hi; omega)
      simpa [Nat.add_comm, Nat.add_left_comm] using hnext
    cur_pos := Nat.succ_pos _ }

/-- PULL takes word `p` of the stream: a refill comes first exactly when no word is buffered. -/
theorem OnStream.pull (h : OnStream key p r) :
    (pull r).1 = streamWord key p ∧ OnStream key (p + 1) (pull r).2 := by
  by_cases hcur : r.cur.val < f.words
  · rw [pull_buffered r hcur]
    exact h.toHoldsStream.takeBuffered hcur
  · have hexhausted : r.cur.val = f.words := Nat.eq_of_lt_succ_of_not_lt r.cur.isLt hcur
    rw [pull_exhausted r hexhausted]
    exact (h.toHoldsStream.refill hexhausted).takeBuffered _

theorem OnStream.takeWords (h : OnStream key p r) (n : Nat) :
    (takeWords n r).1 = (List.range n).map (fun j => streamWord key (p + j))
      ∧ OnStream key (p + n) (takeWords n r).2 := by
  induction n generalizing p r with
  | zero => exact ⟨rfl, h⟩
  | succ n ih =>
    obtain ⟨hword, hpull⟩ := h.pull
    obtain ⟨hwords, hrest⟩ := ih hpull
    rw [takeWords_succ, List.range_succ_eq_map]
    refine ⟨?_, by rwa [Nat.add_right_comm] at hrest⟩
    simp [hword, hwords, Nat.add_comm, Nat.add_left_comm]

/-! ## A sequence of NEXT and FILL -/

/-- A command of the stream answers from the words at `p`, and takes them. -/
theorem OnStream.answerOf (h : OnStream key p r) (c : StreamCommand) (o : Operands f) :
    (answerOf c.instr f r o).2 = c.response (streamWord key) p
      ∧ OnStream key (p + c.words f) (answerOf c.instr f r o).1 := by
  cases c with
  | next =>
    obtain ⟨hword, hpull⟩ := h.pull
    change (nextAnswer f r).2 = _ ∧ OnStream key (p + 1) (nextAnswer f r).1
    rw [nextAnswer_of_valid h.valid_eq, hword]
    exact ⟨rfl, hpull⟩
  | fill n =>
    obtain ⟨hwords, htake⟩ := h.takeWords (fillWords f n)
    change (fillAnswer f n r).2 = _ ∧ OnStream key (p + fillWords f n) (fillAnswer f n r).1
    rw [fillAnswer_of_valid h.valid_eq, hwords]
    exact ⟨rfl, htake⟩

theorem step_streamCommand {c : StreamCommand} (hc : c.instr.wf = true) (r : Regs f) (o o' : Operands f)
    (p : List (HostAction f)) (x : List (Response f)) :
    step ⟨f, r, o, c.action o' :: p, x⟩ =
      .next ⟨f, (answerOf c.instr f r o').1, o', p, x ++ [(answerOf c.instr f r o').2]⟩ :=
  (step_decoded rfl (decode_encode hc)).trans (exec_mk c.instr r o' p x)

theorem StreamCommand.instr_wf {c : StreamCommand} (h : ∀ n, c = .fill n → n < 65536) : c.instr.wf = true := by
  cases c with
  | next => rfl
  | fill n => exact decide_eq_true (h n rfl)

/-- A run of NEXT and FILL answers from the stream's words in order, and stays on the stream. -/
theorem OnStream.run {cs : List StreamCommand} (h : OnStream key p r)
    (hcs : ∀ n, StreamCommand.fill n ∈ cs → n < 65536) (o o' : Operands f) (x : List (Response f)) :
    ∃ t o'', run cs.length ⟨f, r, o, cs.map fun c => c.action o', x⟩ =
        .next ⟨f, t, o'', [], x ++ streamResponses (streamWord key) p cs⟩
      ∧ OnStream key (p + streamWords f cs) t := by
  induction cs generalizing p r o x with
  | nil => exact ⟨r, o, by simp [streamResponses], h⟩
  | cons c cs ih =>
    obtain ⟨hresponse, hstream⟩ := h.answerOf c o'
    have hwf : c.instr.wf = true := StreamCommand.instr_wf fun n hn => hcs n (by simp [hn])
    obtain ⟨t, o'', hrun, ht⟩ :=
      ih hstream (fun n hn => hcs n (List.mem_cons_of_mem c hn)) o' (x ++ [c.response (streamWord key) p])
    refine ⟨t, o'', ?_, by simpa [streamWords, Nat.add_assoc] using ht⟩
    rw [← hresponse] at hrun
    rw [List.map_cons, List.length_cons, run_succ_of_next (step_streamCommand hwf r o o' _ x), hrun, hresponse]
    simp [streamResponses]

/-- A SEED, then NEXT and FILL: the responses are those of the stream of the seed's key. -/
theorem run_seeded_stream (r : Regs f) (o o' seedOps : Operands f) (x : List (Response f)) {cs : List StreamCommand}
    (hcs : ∀ n, StreamCommand.fill n ∈ cs → n < 65536) :
    ∃ t o'', run (cs.length + 1) ⟨f, r, o, .command ⟨encode .seed, seedOps⟩ :: cs.map fun c => c.action o', x⟩ =
        .next ⟨f, t, o'', [], x ++ Response.blank f .ok :: streamResponses (streamWord (seedKey seedOps)) 0 cs⟩
      ∧ OnStream (seedKey seedOps) (streamWords f cs) t := by
  obtain ⟨t, o'', hrun, ht⟩ :=
    (seedAnswer_onStream seedOps).run hcs seedOps o' (x ++ [Response.blank f .ok])
  refine ⟨t, o'', ?_, by rwa [Nat.zero_add] at ht⟩
  rw [List.append_cons, ← hrun]
  exact run_succ_of_next (step_seed_mk r o seedOps _ x)

end

/-! ## The order of the stream -/

theorem counterValue_threefryCounter (n : Nat) : counterValue (threefryCounter n) = n % 2 ^ 128 := by
  rw [counterValue_pair64]
  simp only [threefryCounter, Vector.getElem_mk, List.getElem_toArray, List.getElem_cons_zero,
    List.getElem_cons_succ, BitVec.toNat_ofNat]
  omega

theorem counterValue_refillCounter_threefry (q : Nat) : counterValue (refillCounter .tf2x64 q) = q % 2 ^ 128 := by
  have hzero : counterValue (Vector.replicate 2 (0 : BitVec 64)) = 0 := rfl
  rw [refillCounter, counterValue_iterate_advance_threefry, hzero, Nat.zero_add]

theorem refillCounter_threefry (q : Nat) : refillCounter .tf2x64 q = threefryCounter q :=
  counterValue_injective ((counterValue_refillCounter_threefry q).trans (counterValue_threefryCounter q).symm)

theorem streamWord_threefry (key : Key .tf2x64) : streamWord key = threefryStreamWord key := by
  funext p
  simp only [streamWord, refillCounter_threefry]
  rfl

theorem refillCounter_philox (v : Philox) (q : Nat) :
    refillCounter (.philox v) q = Vector.replicate v.words 0 :=
  Function.iterate_fixed (advance_philox v _) q

theorem streamWord_philox (v : Philox) (key : Key (.philox v)) : streamWord key = philoxStreamWord v key := by
  funext p
  simp only [streamWord, refillCounter_philox]
  rfl

/-- After `p` words of a Threefry stream, `⌈p / 2⌉` blocks have been generated. -/
theorem OnStream.counterValue_threefry {key : Key .tf2x64} {p : Nat} {r : Regs .tf2x64} (h : OnStream key p r) :
    counterValue r.ctr = ((p + 1) / 2) % 2 ^ 128 := by
  obtain ⟨q, hq, hctr⟩ := h.ctr_eq
  have hpos := h.cur_pos
  have hmax : r.cur.val ≤ 2 := Nat.le_of_lt_succ r.cur.isLt
  have hgenerated : q * 2 + r.cur.val = p + 2 := hq
  have hrefills : q = (p + 1) / 2 := by omega
  rw [hctr, counterValue_refillCounter_threefry, hrefills]

/-- Settles O40: the refills' counters are 0, 1, 2, ..., and `⌈j / 2⌉` refills serve `j` words. -/
theorem threefryStreamIsTheBlocksInCounterOrder : Obligations.ThreefryStreamIsTheBlocksInCounterOrder := by
  intro r o o' seedOps x cs hcs
  obtain ⟨t, o'', hrun, ht⟩ := run_seeded_stream r o o' seedOps x hcs
  rw [streamWord_threefry] at hrun
  exact ⟨t, o'', hrun, ht.counterValue_threefry⟩

/-- Settles O41: every refill finds the zero counter, which no Philox family advances (D11). -/
theorem philoxStreamRepeatsTheZeroBlock : Obligations.PhiloxStreamRepeatsTheZeroBlock := by
  intro v r o o' seedOps x cs hcs
  obtain ⟨t, o'', hrun, ht⟩ := run_seeded_stream r o o' seedOps x hcs
  obtain ⟨q, -, hctr⟩ := ht.ctr_eq
  rw [streamWord_philox] at hrun
  exact ⟨t, o'', hrun, hctr.trans (refillCounter_philox v q)⟩

end Sys2Proof.Machine
end

section
/-! # The control commands: NOP, RDSTATE and RDBUF (spec/44_control.md R180 to R182)

None of the three checks the family or VALID, so each one's answer is the same pair in every state: the registers as
they were, and one response. -/

namespace Sys2Proof.Machine

theorem answerOf_nop (f : Family) (r : Regs f) (o : Operands f) :
    answerOf .nop f r o = (r, Response.blank f .ok) := rfl

theorem answerOf_rdstate (f : Family) (r : Regs f) (o : Operands f) :
    answerOf .rdstate f r o =
      (r, { Response.blank f .ok with d := blockResult r.ctr, e := keyResult r.key, summary := stateSummary r }) :=
  rfl

theorem answerOf_rdbuf (f : Family) (r : Regs f) (o : Operands f) :
    answerOf .rdbuf f r o =
      (r, { Response.blank f .ok with d := blockResult r.buf, summary := stateSummary r }) := rfl

/-- Settles O37: D and E are `blockResult` of CTR and `keyResult` of KEY, and F is the sum of its three fields. -/
theorem rdstateReportsCounterKeyAndSummary : Obligations.RdstateReportsCounterKeyAndSummary := by
  intro s
  refine ⟨_, exec_of_answerOf (answerOf_rdstate s.family s.regs s.operands), ?status, ?bytes, ?d, ?e, ?summary⟩
  case status => exact blank_status s.family .ok
  case bytes => exact blank_bytes s.family .ok
  case d => exact blockResult_getElem s.regs.ctr
  case e => exact keyResult_getElem s.regs.key
  case summary => exact stateSummary_toNat s.regs

/-- Settles O38: D is `blockResult` of BUF whatever CUR is, since the answer takes no word, and E stays blank. -/
theorem rdbufReportsTheBufferedBlock : Obligations.RdbufReportsTheBufferedBlock := by
  intro s
  refine ⟨_, exec_of_answerOf (answerOf_rdbuf s.family s.regs s.operands), ?status, ?bytes, ?e, ?d, ?summary⟩
  case status => exact blank_status s.family .ok
  case bytes => exact blank_bytes s.family .ok
  case e => exact fun _ hj => Vector.getElem_replicate hj
  case d => exact blockResult_getElem s.regs.buf
  case summary => exact stateSummary_toNat s.regs

/-- Settles O36: the response is the blank one with status OK. -/
theorem nopAnswersOkAndChangesNothing : Obligations.NopAnswersOkAndChangesNothing := by
  intro s
  refine ⟨_, exec_of_answerOf (answerOf_nop s.family s.regs s.operands), ?status, ?d, ?e, ?summary, ?bytes⟩
  case status => exact blank_status s.family .ok
  case d => exact fun _ hi => Vector.getElem_replicate hi
  case e => exact fun _ hj => Vector.getElem_replicate hj
  case summary => exact blank_summary s.family .ok
  case bytes => exact blank_bytes s.family .ok

end Sys2Proof.Machine
end

section
/-! # Statuses: which command answers which, and what an error leaves alone
(spec/60_exceptions.md R190 to R193, R201; spec/70_reset_and_hazards.md R210) -/

namespace Sys2Proof.Machine

/-! ## The status of a command -/

section
variable (i : Instr) (f : Family) (r : Regs f) (o : Operands f)

/-- Decoding alone finds ILLEGAL. -/
theorem answerOf_status_ne_illegal : (answerOf i f r o).2.status ≠ .illegal := by
  rw [answerOf_status]
  split_ifs <;> decide

theorem answerOf_status_eq_unsupported_iff :
    (answerOf i f r o).2.status = .unsupported ↔ available i f = false := by
  rw [answerOf_status]
  split_ifs with hav <;> simp [hav]

/-- The check of the family comes before that of VALID (R191). -/
theorem answerOf_status_eq_notSeeded_iff :
    (answerOf i f r o).2.status = .notSeeded ↔ r.valid = false ∧ needsSeed i = true ∧ available i f = true := by
  rw [answerOf_status, and_left_comm, ← and_assoc]
  split_ifs with hav hseed
  · simp [hav]
  · simp [hav, hseed]
  · simp [hseed]

variable {i f r} in
theorem answerOf_status_of_supported (hav : available i f = true) (hseed : needsSeed i = true → r.valid = true) :
    (answerOf i f r o).2.status = .ok := by
  rw [answerOf_status, if_neg (by simp [hav]), if_neg fun ⟨hneeds, hv⟩ => by simp [hseed hneeds] at hv]

/-- The commands that a family lacks (R68). -/
theorem available_eq_false_iff_command :
    available i f = false ↔
      (i = .setkey ∧ f ≠ .tf2x64) ∨ ((i = .setctr ∨ i = .round ∨ i = .bump) ∧ f = .tf2x64) := by
  cases i <;> simp [available]

/-- The commands that need a seed, in the families that have them (R68, R190). -/
theorem needsSeed_and_available_iff :
    needsSeed i = true ∧ available i f = true ↔
      (i = .setkey ∧ f = .tf2x64) ∨ (i = .setctr ∧ f ≠ .tf2x64) ∨ i = .gen ∨ i = .next ∨ ∃ n, i = .fill n := by
  cases i <;> simp [needsSeed, available]

end

/-- Settles O10: each cause is a check of `answerOf_status`, written out command by command. -/
theorem statusCodesAndTheirCauses : Obligations.StatusCodesAndTheirCauses := by
  refine ⟨⟨rfl, rfl, rfl, rfl⟩, fun s i => ⟨_, _, exec_eq_complete i s, ?illegal, ?unsupported, ?notSeeded⟩⟩
  case illegal => exact answerOf_status_ne_illegal i s.family s.regs s.operands
  case unsupported =>
    rw [answerOf_status_eq_unsupported_iff, available_eq_false_iff_command]
  case notSeeded =>
    rw [answerOf_status_eq_notSeeded_iff, needsSeed_and_available_iff]

/-- Settles O12: with both checks passed, the status is OK. -/
theorem supportedCommandsSucceed : Obligations.SupportedCommandsSucceed :=
  fun s i hav hseed => ⟨_, _, exec_eq_complete i s, answerOf_status_of_supported s.operands hav hseed⟩

/-! ## The status of a request -/

/-- Settles O9: a step on a request completes with its answer, whose status `answerTo_status` gives. -/
theorem statusIsTheFirstFailingCheck : Obligations.StatusIsTheFirstFailingCheck :=
  fun s q _ hp => ⟨_, _, step_command hp, answerTo_status s.family s.regs q⟩

/-! ## An error has no effect -/

/-- A command that does not answer OK was ended by `raise`, at the check of the family or at that of VALID (R192). -/
theorem answerOf_of_status_ne_ok {i : Instr} {f : Family} {r : Regs f} {o : Operands f}
    (h : (answerOf i f r o).2.status ≠ .ok) : ∃ st, answerOf i f r o = raise st r := by
  cases hav : available i f with
  | false => exact ⟨_, answerOf_of_unavailable r o hav⟩
  | true =>
    by_cases hseed : needsSeed i = true → r.valid = true
    · exact absurd (answerOf_status_of_supported o hav hseed) h
    · obtain ⟨hneeds, hv⟩ := Classical.not_imp.mp hseed
      exact ⟨_, answerOf_of_unseeded o (Bool.eq_false_of_not_eq_true hv) hneeds hav⟩

/-- `answerOf_of_status_ne_ok` for a request, whose word may also be ILLEGAL. -/
theorem answerTo_of_checkedStatus_ne_ok {f : Family} {r : Regs f} {q : Request f}
    (h : checkedStatus f r.valid q.cmd ≠ .ok) : answerTo f r q = raise (checkedStatus f r.valid q.cmd) r := by
  have hraise : ∃ st, answerTo f r q = raise st r := by
    rw [← answerTo_status] at h
    cases hd : decode q.cmd with
    | error why => exact ⟨.illegal, by rw [answerTo, hd]⟩
    | ok i =>
      rw [answerTo, hd] at h ⊢
      exact answerOf_of_status_ne_ok h
  obtain ⟨st, hst⟩ := hraise
  rw [← answerTo_status, hst, raise_response, blank_status]

/-- Settles O11: `raise` keeps the registers, and its response is blank but for the status. -/
theorem errorStatusChangesNoState : Obligations.ErrorStatusChangesNoState := by
  intro s q rest hp hne
  refine ⟨Response.blank s.family (checkedStatus s.family s.regs.valid q.cmd), ?step, hne,
    fun _ hi => Vector.getElem_replicate hi, fun _ hj => Vector.getElem_replicate hj, rfl, rfl⟩
  case step =>
    rw [step_command hp, answerTo_of_checkedStatus_ne_ok hne]
    rfl

/-! ## Idle and reset -/

/-- Settles O7: `resetBlock` builds the state that the statement writes out. -/
theorem idleAndResetKeepTheHostsSide : Obligations.IdleAndResetKeepTheHostsSide :=
  ⟨fun _ => step_idle, fun s _ hp => ⟨Regs.reset s.family, Operands.zero s.family, step_reset hp⟩⟩

end Sys2Proof.Machine
end

section
/-! # Reset and the hazards of the buffered words (spec/70_reset_and_hazards.md R210, R215, R218) -/

namespace Sys2Proof.Machine

/-! ## Reset -/

/-- The values of R210's table, element by element. -/
theorem reset_elements (f : Family) :
    (∀ i (_ : i < f.words), (Regs.reset f).ctr[i] = 0) ∧ (∀ j (_ : j < f.keyWords), (Regs.reset f).key[j] = 0)
      ∧ (∀ i (_ : i < f.words), (Regs.reset f).buf[i] = 0) ∧ (Regs.reset f).cur.val = f.words
      ∧ (Regs.reset f).valid = false :=
  ⟨fun _ hi => Vector.getElem_replicate hi, fun _ hj => Vector.getElem_replicate hj,
    fun _ hi => Vector.getElem_replicate hi, rfl, rfl⟩

/-- Settles O8: power-on and a host reset leave the same registers, those of `reset_elements`. -/
theorem resetGivesTheResetValues : Obligations.ResetGivesTheResetValues :=
  ⟨fun f => ⟨rfl, reset_elements f⟩, ⟨Config.resetFamily, rfl⟩,
    fun s rest hp => ⟨resetBlock s rest, step_reset hp, resetBlock_family s rest, reset_elements s.family⟩⟩

/-- Settles O47: the registers are those of reset, and the host has received no response. -/
theorem theInvariantHoldsAtReset : Obligations.TheInvariantHoldsAtReset :=
  fun _ => ⟨fun _ => rfl, fun _ hr => absurd hr List.not_mem_nil⟩

/-! ## Draining the buffer -/

/-- As many takes as words are buffered give those words, and never refill: R160 asks for a refill only at CUR = N. -/
theorem takeWords_buffered {f : Family} {n : Nat} (r : Regs f) (h : r.cur.val + n = f.words) :
    takeWords n r = (r.buf.toList.drop r.cur.val, { r with cur := Fin.last f.words }) := by
  induction n generalizing r with
  | zero =>
    have hcur : r.cur = Fin.last f.words := Fin.ext h
    have hdrop : r.buf.toList.drop r.cur.val = [] := List.drop_of_length_le (by simp [hcur])
    rw [takeWords_zero, hdrop, ← hcur]
  | succ n ih =>
    have hlt : r.cur.val < f.words := by omega
    have hrest := ih (takeBuffered r hlt).2 (by rw [takeBuffered_cur]; omega)
    have hdrop : r.buf.toList.drop r.cur.val = r.buf[r.cur.val] :: r.buf.toList.drop (r.cur.val + 1) :=
      List.drop_eq_getElem_cons (by simpa using hlt)
    rw [takeWords_succ, pull_buffered r hlt, hrest, hdrop]
    rfl

/-- Settles O42: the takes read BUF and CUR alone, which a new CTR and KEY leave as they were. -/
theorem bufferedWordsAreServedFirst : Obligations.BufferedWordsAreServedFirst :=
  fun _ r ctr key =>
    takeWords_buffered { r with ctr := ctr, key := key } (Nat.add_sub_of_le (Nat.le_of_lt_succ r.cur.isLt))

/-! ## Fills that join -/

/-- Whole words come off the count of words that FILL takes. -/
theorem fillWords_mul_add (f : Family) (k n : Nat) : fillWords f (f.wordBytes * k + n) = k + fillWords f n := by
  have hpos := wordBytes_pos f
  have hsum : f.wordBytes * k + n + f.wordBytes - 1 = f.wordBytes * k + (n + f.wordBytes - 1) := by omega
  rw [fillWords, hsum, Nat.mul_add_div hpos, ← fillWords]

theorem fillWords_mul (f : Family) (k : Nat) : fillWords f (f.wordBytes * k) = k := by
  have hzero : fillWords f 0 = 0 := Nat.div_eq_of_lt (by have := wordBytes_pos f; omega)
  simpa [hzero] using fillWords_mul_add f k 0

/-- The bytes of `k` words, followed by `n` more, are the first `WB * k + n` of the bytes of all the words. -/
theorem take_wordBytes_append {f : Family} {k : Nat} {ws : List (Word f)} (hlen : ws.length = k) (n : Nat)
    (others : List (Word f)) :
    ((ws ++ others).flatMap leBytes).take (f.wordBytes * k + n) =
      ws.flatMap leBytes ++ (others.flatMap leBytes).take n := by
  have hbytes : (ws.flatMap leBytes).length = f.wordBytes * k := by
    rw [flatMap_length leBytes f.wordBytes leBytes_word_length, hlen, Nat.mul_comm]
  rw [List.flatMap_append, ← hbytes, List.take_length_add_append]

/-- A FILL of whole words drops no byte of its last word (R162, D17). -/
theorem fillAnswer_of_whole_words {f : Family} {r : Regs f} (hv : r.valid = true) (k : Nat) :
    fillAnswer f (f.wordBytes * k) r =
      ((takeWords k r).2, { Response.blank f .ok with bytes := (takeWords k r).1.flatMap leBytes }) := by
  have hbytes : ((takeWords k r).1.flatMap leBytes).take (f.wordBytes * k) = (takeWords k r).1.flatMap leBytes := by
    simpa using take_wordBytes_append (takeWords_length k r) 0 []
  rw [fillAnswer_of_valid hv, fillWords_mul, hbytes]

/-- Settles O43: the words of both fills are one run of takes (`takeWords_add`), and the first fill drops no byte. -/
theorem fillsJoinAtWordBoundaries : Obligations.FillsJoinAtWordBoundaries := by
  rintro f r - n hv ⟨k, rfl⟩
  have hv' : (takeWords k r).2.valid = true := (takeWords_valid k r).trans hv
  rw [fillAnswer_of_whole_words hv, fillAnswer_of_valid hv, fillAnswer_of_valid hv', fillWords_mul_add, takeWords_add]
  exact ⟨rfl, take_wordBytes_append (takeWords_length k r) n _⟩

end Sys2Proof.Machine
end
